-- ==== Sys2Proof/Word.lean ====
section
/-! DEFINITION. The word types of the block (spec/00_scope.md R6, R9). -/

namespace Sys2Proof

/-- A byte: 8 bits, bit 7 the most significant (00_scope.md R6, R9). -/
abbrev Byte := BitVec 8

/-- The contents of VIN and VOUT (10_state.md R20). -/
abbrev Value := BitVec 64

/-- A command word (30_encoding.md R70). -/
abbrev CommandWord := BitVec 8

end Sys2Proof
end

