-- ==== Sys2Proof/Config.lean ====
section
/-! DEFINITION. What an implementation fixes and what the spec leaves free: the parameters AW and LW with their defaults
(spec/00_scope.md R7, D5) and the value of VOUT after a failed decode (spec/93_implementation_defined.md U1, D16). -/

namespace Sys2Proof.Config

/-- The spec's default of AW, the width of a buffer address (00_scope.md R7). -/
def defaultAW : Nat := 32

/-- The spec's default of LW, the width of the remaining length (00_scope.md R7). -/
def defaultLW : Nat := 32

/-- The constraint 00_scope.md R7 puts on the two parameters: "`AW >= 4`" and "`LW >= 4`". -/
abbrev legal (aw lw : Nat) : Prop := 4 ≤ aw ∧ 4 ≤ lw

/-- `unspecified_64` of 10_state.md R22 and 60_exceptions.md R153: the value that the n-th failed decode leaves in VOUT. It has no
body, so no proof can see what it is (log 5). -/
opaque unspecified64 : Nat → Value

end Sys2Proof.Config
end

