-- ==== Sys2Proof/Syntax.lean ====
section
/-! DEFINITION. The commands of the block: one constructor per row of spec/opcode_table.json (spec/30_encoding.md R70, R81). -/

namespace Sys2Proof

/-- The twelve commands. None has an operand field: operands and results are in fixed registers (30_encoding.md R73). -/
inductive Instr where
  /-- ZZENC32, word 0x02: 40_zigzag.md R92. -/
  | zzenc32
  /-- ZZENC64, word 0x03: 40_zigzag.md R93. -/
  | zzenc64
  /-- ZZDEC32, word 0x04: 40_zigzag.md R94. -/
  | zzdec32
  /-- ZZDEC64, word 0x05: 40_zigzag.md R95. -/
  | zzdec64
  /-- VPACK32, word 0x06: 41_varint_pack.md R104. -/
  | vpack32
  /-- VPACK64, word 0x07: 41_varint_pack.md R105. -/
  | vpack64
  /-- VUNPACK32, word 0x08: 42_varint_unpack.md R117. -/
  | vunpack32
  /-- VUNPACK64, word 0x09: 42_varint_unpack.md R118. -/
  | vunpack64
  /-- PUTZINT, word 0x0A: 44_composite.md R140. -/
  | putzint
  /-- PUTZLONG, word 0x0B: 44_composite.md R141. -/
  | putzlong
  /-- READZINT, word 0x0C: 44_composite.md R142. -/
  | readzint
  /-- READZLONG, word 0x0D: 44_composite.md R143. -/
  | readzlong
  deriving DecidableEq, Repr

/-- Every command, in the order of 30_encoding.md R70. -/
def Instr.all : List Instr :=
  [.zzenc32, .zzenc64, .zzdec32, .zzdec64, .vpack32, .vpack64, .vunpack32, .vunpack64, .putzint, .putzlong, .readzint, .readzlong]

/-- The pure commands (00_scope.md R13). -/
def Instr.isPure : Instr → Bool
  | .zzenc32 | .zzenc64 | .zzdec32 | .zzdec64 => true
  | .vpack32 | .vpack64 | .vunpack32 | .vunpack64 | .putzint | .putzlong | .readzint | .readzlong => false

/-- The encode commands (00_scope.md R13). -/
def Instr.isEncode : Instr → Bool
  | .vpack32 | .vpack64 | .putzint | .putzlong => true
  | .zzenc32 | .zzenc64 | .zzdec32 | .zzdec64 | .vunpack32 | .vunpack64 | .readzint | .readzlong => false

/-- The decode commands (00_scope.md R13). -/
def Instr.isDecode : Instr → Bool
  | .vunpack32 | .vunpack64 | .readzint | .readzlong => true
  | .zzenc32 | .zzenc64 | .zzdec32 | .zzdec64 | .vpack32 | .vpack64 | .putzint | .putzlong => false

/-- The width W of a command: the width bit `w` (30_encoding.md R70, R71). -/
def Instr.width : Instr → Nat
  | .zzenc32 | .zzdec32 | .vpack32 | .vunpack32 | .putzint | .readzint => 32
  | .zzenc64 | .zzdec64 | .vpack64 | .vunpack64 | .putzlong | .readzlong => 64

end Sys2Proof
end

