-- ==== Sys2Proof/WellFormed.lean ====
section
/-! DEFINITION. The fields of a command word (format C) and when they are those of a command (spec/30_encoding.md R70, R76). -/

namespace Sys2Proof

/-- The three fields of format C (30_encoding.md R70). -/
structure CommandFields where
  /-- Bits 7:4. -/
  zero : BitVec 4
  /-- Bits 3:1, the function. -/
  fn : BitVec 3
  /-- Bit 0, the width bit: 0 for W = 32, 1 for W = 64. -/
  w : BitVec 1
  deriving DecidableEq, Repr

/-- The check on bits 7:4: "must be 0b0000" (30_encoding.md R70). -/
abbrev CommandFields.zeroClear (f : CommandFields) : Prop := f.zero = 0#4

/-- The check on the function: "0 and 7 reserved" (30_encoding.md R70). -/
abbrev CommandFields.functionLegal (f : CommandFields) : Prop := f.fn ≠ 0#3 ∧ f.fn ≠ 7#3

/-- The fields of one of the twelve commands; every other word is reserved (30_encoding.md R76). -/
abbrev CommandFields.wf (f : CommandFields) : Prop := f.zeroClear ∧ f.functionLegal

/-- The encoding table of 30_encoding.md R70: the function and the width bit of each command. -/
def Instr.fields : Instr → CommandFields
  | .zzenc32 => ⟨0, 1, 0⟩
  | .zzenc64 => ⟨0, 1, 1⟩
  | .zzdec32 => ⟨0, 2, 0⟩
  | .zzdec64 => ⟨0, 2, 1⟩
  | .vpack32 => ⟨0, 3, 0⟩
  | .vpack64 => ⟨0, 3, 1⟩
  | .vunpack32 => ⟨0, 4, 0⟩
  | .vunpack64 => ⟨0, 4, 1⟩
  | .putzint => ⟨0, 5, 0⟩
  | .putzlong => ⟨0, 5, 1⟩
  | .readzint => ⟨0, 6, 0⟩
  | .readzlong => ⟨0, 6, 1⟩

/-- A command is well formed when its fields are: it has no operand that could be wrong (30_encoding.md R73). -/
abbrev Instr.wf (i : Instr) : Prop := i.fields.wf

end Sys2Proof
end

