-- ==== Sys2Proof/Decode.lean ====
section
/-! DEFINITION. Command words to commands and back (spec/30_encoding.md R70, R76). `Instr.fields` (WellFormed.lean) is the spec's table
read from the command; `decode` reads the table from the word. -/

namespace Sys2Proof

/-- Why a command word is reserved (30_encoding.md R76): it is no command, and the block answers ILLEGAL. -/
inductive DecodeError where
  /-- A bit of 7:4 is set. -/
  | zeroFieldSet
  /-- The function is 0 or 7. -/
  | reservedFunction
  deriving DecidableEq, Repr

/-- The fields of a command word (30_encoding.md R70). -/
def fieldsOf (c : CommandWord) : CommandFields :=
  ⟨c.extractLsb' 4 4, c.extractLsb' 1 3, c.extractLsb' 0 1⟩

/-- The command of width 32 or of width 64, by the width bit (30_encoding.md R71). -/
def byWidth (w : BitVec 1) (narrow wide : Instr) : Instr :=
  if w = 0#1 then narrow else wide

/-- The command a function code and a width bit select (30_encoding.md R70). -/
def decodeFunction (fn : BitVec 3) (w : BitVec 1) : Except DecodeError Instr :=
  match fn.toNat with
  | 1 => .ok (byWidth w .zzenc32 .zzenc64)
  | 2 => .ok (byWidth w .zzdec32 .zzdec64)
  | 3 => .ok (byWidth w .vpack32 .vpack64)
  | 4 => .ok (byWidth w .vunpack32 .vunpack64)
  | 5 => .ok (byWidth w .putzint .putzlong)
  | 6 => .ok (byWidth w .readzint .readzlong)
  | _ => .error .reservedFunction

/-- The command of a command word, or why the word is reserved. "A decoder needs the whole byte" (30_encoding.md R70). -/
def decode (c : CommandWord) : Except DecodeError Instr :=
  let f := fieldsOf c
  if f.zero = 0#4 then decodeFunction f.fn f.w else .error .zeroFieldSet

/-- The command word with the given fields. -/
def wordOf (f : CommandFields) : CommandWord := f.zero ++ f.fn ++ f.w

/-- The command word of a command (30_encoding.md R70). -/
def encode (i : Instr) : CommandWord := wordOf i.fields

/-- The command of an opcode table row whose bits are `w`: a row of this table has 8 bits. -/
def decodeTableWord (nbits w : Nat) : Option Instr :=
  if nbits = 8 ∧ w < 256 then (decode (BitVec.ofNat 8 w)).toOption else none

end Sys2Proof
end

