-- ==== Sys2Proof/Machine/State.lean ====
section
/-! DEFINITION. The state of the machine, the host's actions, and the reasons a step can stop (spec/10_state.md, spec/20_memory.md R50,
spec/70_reset_and_hazards.md R186). -/

namespace Sys2Proof.Machine

/-- The seven registers, by name (10_state.md R20). Their numbers are in Operands.lean. -/
inductive Reg where
  | vin | vout | dst | cnt | pos | rem | st
  deriving DecidableEq, Repr

/-- The two ways a decode command fails (60_exceptions.md R150). -/
inductive FailKind where
  /-- No terminating byte within the window (42_varint_unpack.md R114). -/
  | exhausted
  /-- The varint needs more bytes or more bits than the width holds (42_varint_unpack.md R115). -/
  | overlong
  deriving DecidableEq, Repr

/-- What ST.ERR can name (10_state.md R31, 60_exceptions.md R150). -/
inductive ErrCode where
  | none | exhausted | overlong | illegal
  deriving DecidableEq, Repr

/-- The buffer memory MEM (20_memory.md R50), as the bytes that differ from what an unlisted address reads as, by rising address. -/
abbrev Memory := List Host.Cell

/-- One byte access of a command to MEM, at an address (20_memory.md R52, R53). -/
inductive Access where
  | read (a : Nat)
  | write (a : Nat) (v : Byte)
  deriving DecidableEq, Repr

/-- The memory side of a command in progress: MEM, and the byte accesses made so far, oldest first. -/
structure Port where
  mem : Memory
  trace : List Access
  deriving DecidableEq, Repr

/-- One action of a run (70_reset_and_hazards.md R186). Register numbers are 3 bits (10_state.md R20); values and addresses are numbers,
so that a value too wide for its register and a number that is no address can be written down and turned away (log 9, log 10). -/
inductive HostAction where
  /-- `reset()`, the platform's (70_reset_and_hazards.md R170). -/
  | reset
  /-- `wr(reg, v)` (10_state.md R25). -/
  | wr (reg : BitVec 3) (v : Nat)
  /-- `rd(reg)` (10_state.md R25). -/
  | rd (reg : BitVec 3)
  /-- `cmd(c)` (10_state.md R25, 30_encoding.md R70). -/
  | cmd (c : CommandWord)
  /-- `mw(a, v)` (20_memory.md R60). -/
  | mw (a : Nat) (v : Byte)
  /-- `mr(a)` (20_memory.md R60). -/
  | mr (a : Nat)
  deriving DecidableEq, Repr

/-- A value the host got back: "the sequence of values returned by `rd` and `mr`" (70_reset_and_hazards.md R186). -/
inductive Reply where
  | rd (reg : BitVec 3) (v : Nat)
  | mr (a : Nat) (v : Byte)
  deriving DecidableEq, Repr

/-- Why the machine stops with a fault. No command does. -/
inductive Fault where
  /-- Raised by `mw` and `mr` at a number that is no AW-bit address (20_memory.md R50; log 10). Safe: the machine stops. -/
  | noSuchAddress
  deriving DecidableEq, Repr

/-- Why the model gives an action no meaning. -/
inductive Refusal where
  /-- Raised by no command: an arm of exec whose command has no meaning yet would answer it. Safe: the machine stops. -/
  | notModelled (mnemonic : String)
  /-- Raised by `wr` and `rd` of register number 7, which does not exist (10_state.md R25, D20, U6). Safe: the machine stops. -/
  | noSuchRegister
  /-- Raised by `wr` to VOUT, CNT or ST, which the host may not write (10_state.md R25, D20, U6). Safe: the machine stops. -/
  | registerNotHostWritable
  /-- Raised by `wr` of a value that does not fit the register: "`v` has exactly the register's width" (10_state.md R25; log 9). Safe: the
  machine stops. -/
  | valueTooWide
  deriving DecidableEq, Repr

/-- The machine: the seven registers of one block (10_state.md R20), the buffer memory (20_memory.md R50), the two parameters of the
implementation (00_scope.md R7), and the model's own record of the run (70_reset_and_hazards.md R186). -/
structure State where
  /-- AW, the width of a buffer address. No step changes it (00_scope.md R7; log 1). -/
  aw : Nat
  /-- LW, the width of the remaining length. No step changes it (00_scope.md R7; log 1). -/
  lw : Nat
  /-- VIN, the operand (10_state.md R21). -/
  vin : Value
  /-- VOUT, the result (10_state.md R22). -/
  vout : Value
  /-- DST, where an encode command writes (10_state.md R27). -/
  dst : BitVec aw
  /-- CNT, the byte count (10_state.md R28). -/
  cnt : BitVec 4
  /-- POS, the cursor's position (10_state.md R29). -/
  pos : BitVec aw
  /-- REM, the cursor's remaining length (10_state.md R30). -/
  rem : BitVec lw
  /-- ST, the outcome of the last command (10_state.md R31). -/
  st : BitVec 3
  /-- MEM, the buffer memory, the host's (20_memory.md R50). -/
  mem : Memory
  /-- The model's own: the actions the host is going to make, next first (log 2). -/
  pending : List HostAction
  /-- The model's own: the values returned to the host, oldest first (log 3). -/
  returned : List Reply
  /-- The model's own: the byte accesses commands have made, oldest first (log 4). -/
  trace : List Access
  /-- The model's own: how many free values have been drawn (log 5). -/
  draws : Nat
  deriving DecidableEq, Repr

/-- The machine of an implementation with parameters `aw` and `lw`, right after reset, with MEM and the model's own fields empty
(10_state.md R38). -/
def State.resetWith (aw lw : Nat) : State where
  aw := aw
  lw := lw
  vin := 0
  vout := 0
  dst := 0
  cnt := 0
  pos := 0
  rem := 0
  st := 0b001#3
  mem := []
  pending := []
  returned := []
  trace := []
  draws := 0

/-- The machine right after reset, at the spec's default parameters (10_state.md R38, 70_reset_and_hazards.md R170, R171). -/
def State.reset : State := State.resetWith Config.defaultAW Config.defaultLW

end Sys2Proof.Machine
end

