-- ==== Sys2Proof/Machine/Operands.lean ====
section
/-! DEFINITION. Register numbers, the operands a command reads and the results it writes (spec/10_state.md R20 to R22,
spec/30_encoding.md R71, R73), and MAXLEN (spec/00_scope.md R6, R8). -/

namespace Sys2Proof.Machine

/-- The register of a register number; number 7 does not exist (10_state.md R20). -/
def regOfNumber (n : BitVec 3) : Option Reg :=
  match n.toNat with
  | 0 => some .vin
  | 1 => some .vout
  | 2 => some .dst
  | 3 => some .cnt
  | 4 => some .pos
  | 5 => some .rem
  | 6 => some .st
  | _ => none

/-- The number of a register (10_state.md R20). -/
def regNumber : Reg → BitVec 3
  | .vin => 0
  | .vout => 1
  | .dst => 2
  | .cnt => 3
  | .pos => 4
  | .rem => 5
  | .st => 6

/-- The width of a register (10_state.md R20). -/
def regWidth (s : State) : Reg → Nat
  | .vin => 64
  | .vout => 64
  | .dst => s.aw
  | .cnt => 4
  | .pos => s.aw
  | .rem => s.lw
  | .st => 3

/-- The value of a register, as a number (10_state.md R25: "Returns `x[reg]`"). -/
def regValue (s : State) : Reg → Nat
  | .vin => s.vin.toNat
  | .vout => s.vout.toNat
  | .dst => s.dst.toNat
  | .cnt => s.cnt.toNat
  | .pos => s.pos.toNat
  | .rem => s.rem.toNat
  | .st => s.st.toNat

/-- `MAXLEN(W) = ceil(W / 7)`: 5 for W = 32, 10 for W = 64 (00_scope.md R6, R8). -/
def maxLen (W : Nat) : Nat := (W + 6) / 7

/-- The operand of a command of width W: "`x[VIN][31:0]` and ignores `x[VIN][63:32]`" at W = 32, all of VIN at W = 64 (10_state.md R21). -/
def operand (W : Nat) (s : State) : BitVec W := s.vin.extractLsb' 0 W

/-- How a result of width W is written to VOUT: zeros above it, whether it is signed or not (10_state.md R22). -/
def result {W : Nat} (v : BitVec W) : Value := v.setWidth 64

end Sys2Proof.Machine
end

