-- ==== Sys2Proof/Machine/Cursor.lean ====
section
/-! DEFINITION. Sub-block CT, the cursor tracker: its micro-operations (spec/43_cursor_tracker.md R125 to R129), the window and its end
(spec/10_state.md R37, spec/43_cursor_tracker.md R130). -/

namespace Sys2Proof.Machine

/-- `cur_open()`: the working copies a decode command starts from (43_cursor_tracker.md R127). -/
def curOpen (s : State) : BitVec s.aw × BitVec s.lw := (s.pos, s.rem)

/-- `cur_commit(n)`: after a decode that consumed n bytes (43_cursor_tracker.md R128). -/
def curCommit (n : Nat) (s : State) : State :=
  { s with pos := s.pos + BitVec.ofNat s.aw n, rem := s.rem - BitVec.ofNat s.lw n }

/-- `cur_fail()`: after a failed decode REM is 0 and POS is left (43_cursor_tracker.md R129). -/
def curFail (s : State) : State := { s with rem := 0 }

/-- The buffer address `a +_AW k` (20_memory.md R51). -/
def addr {aw : Nat} (a : BitVec aw) (k : Nat) : BitVec aw := a + BitVec.ofNat aw k

/-- The window: the addresses `x[POS] +_AW k` with `k < x[REM]` (10_state.md R37). -/
def inWindow (s : State) (a : Nat) : Prop := ∃ k, k < s.rem.toNat ∧ a = (addr s.pos k).toNat

/-- `END = x[POS] +_AW trunc_AW(x[REM])` (43_cursor_tracker.md R130). -/
def cursorEnd (s : State) : BitVec s.aw := s.pos + BitVec.ofNat s.aw s.rem.toNat

end Sys2Proof.Machine
end

