-- ==== Sys2Proof/Machine/Flags.lean ====
section
/-! DEFINITION. The status register ST: the only flags of the block (spec/10_state.md R31 to R34). -/

namespace Sys2Proof.Machine

/-- The 2-bit code of ST.ERR (10_state.md R31, 60_exceptions.md R150). -/
def errBits : ErrCode → BitVec 2
  | .none => 0
  | .exhausted => 1
  | .overlong => 2
  | .illegal => 3

/-- The code a decode failure writes (60_exceptions.md R153). -/
def failCode : FailKind → ErrCode
  | .exhausted => .exhausted
  | .overlong => .overlong

/-- `{ERR, OK}`, OK in bit 0 (10_state.md R31). -/
def statusWord (ok : Bool) (e : ErrCode) : BitVec 3 := errBits e ++ BitVec.ofBool ok

/-- The field ST.OK. -/
def statusOk (st : BitVec 3) : Bool := st.getLsbD 0

/-- The field ST.ERR. -/
def statusErr (st : BitVec 3) : BitVec 2 := st.extractLsb' 1 2

/-- ST after a success: `OK <- 1, ERR <- 0` (10_state.md R33). -/
def statusSuccess : BitVec 3 := statusWord true .none

/-- ST after a decode failure: `OK <- 0, ERR <- kind` (10_state.md R33, 60_exceptions.md R153). -/
def statusFailure (k : FailKind) : BitVec 3 := statusWord false (failCode k)

/-- ST after a reserved command word: `OK <- 0, ERR <- 3` (10_state.md R33, 30_encoding.md R76). -/
def statusIllegal : BitVec 3 := statusWord false .illegal

end Sys2Proof.Machine
end

