-- ==== Sys2Proof/Machine/Ops.lean ====
section
/-! DEFINITION. The operations every command shares: the buffer memory and its two byte accesses (spec/20_memory.md), the end of a command that
succeeds (spec/10_state.md R33), a decode failure (spec/60_exceptions.md R153) and an illegal command (spec/60_exceptions.md R154). The block has no
trap and so no return from one (spec/60_exceptions.md R156, R159). -/

namespace Sys2Proof.Machine

/-- What an address that the memory does not list reads as: 0xEE, "every byte of MEM = 0xEE unless the program writes it"
(95_test_vectors.md section 3). DESIGN CHOICE, unsafe: U5 leaves it open (log 6). -/
def Memory.unlisted : Byte := 0xEE#8

/-- The byte at an address (20_memory.md R52). -/
def Memory.read : Memory → Nat → Byte
  | [], _ => Memory.unlisted
  | c :: m, a => if c.1 = a then c.2 else Memory.read m a

/-- A cell in front of a memory whose addresses are above it; a cell that says what an unlisted address reads as is left out. -/
def Memory.cons (a : Nat) (v : Byte) (m : Memory) : Memory :=
  if v = Memory.unlisted then m else (a, v) :: m

/-- `MEM[a] <- v` (20_memory.md R53), keeping the canonical form. -/
def Memory.write : Memory → Nat → Byte → Memory
  | [], a, v => Memory.cons a v []
  | c :: m, a, v =>
    if a < c.1 then Memory.cons a v (c :: m)
    else if a = c.1 then Memory.cons a v m
    else c :: Memory.write m a v

/-- The canonical form: addresses rise strictly, and no cell says what an unlisted address reads as. -/
abbrev Memory.wf (m : Memory) : Prop :=
  m.Pairwise (fun c d => c.1 < d.1) ∧ ∀ c ∈ m, c.2 ≠ Memory.unlisted

/-- Every listed address is an AW-bit address (20_memory.md R50). -/
abbrev Memory.within (aw : Nat) (m : Memory) : Prop := ∀ c ∈ m, c.1 < 2 ^ aw

/-- `MemRead(a, 1)` (00_scope.md R11, 20_memory.md R52): the byte, and the port with the access noted. -/
def memRead {aw : Nat} (p : Port) (a : BitVec aw) : Byte × Port :=
  (p.mem.read a.toNat, { p with trace := p.trace ++ [.read a.toNat] })

/-- `MemWrite(a, 1, v)` (00_scope.md R11, 20_memory.md R53), with the access noted. -/
def memWrite {aw : Nat} (p : Port) (a : BitVec aw) (v : Byte) : Port :=
  { mem := p.mem.write a.toNat v, trace := p.trace ++ [.write a.toNat v] }

/-- The memory side of a command that starts in this state. -/
def port (s : State) : Port := ⟨s.mem, s.trace⟩

/-- The state with the memory side of a command that is done. -/
def setPort (p : Port) (s : State) : State := { s with mem := p.mem, trace := p.trace }

/-- The end of a command that succeeds: `OK <- 1, ERR <- 0` (10_state.md R33). -/
def succeed (s : State) : State := { s with st := statusSuccess }

/-- A result in VOUT (10_state.md R22). -/
def setVout (v : Value) (s : State) : State := { s with vout := v }

/-- The byte count of a command in CNT (10_state.md R28). -/
def setCnt (n : Nat) (s : State) : State := { s with cnt := BitVec.ofNat 4 n }

/-- `x[VOUT] <- unspecified_64`: a value no rule fixes, drawn afresh (10_state.md R22, U1; log 5). -/
def drawVout (s : State) : State := { s with vout := Config.unspecified64 s.draws, draws := s.draws + 1 }

/-- `raise Fail(kind)`: the five writes of a decode failure (60_exceptions.md R153). -/
def failDecode (k : FailKind) (s : State) : State :=
  { curFail (setCnt 0 (drawVout s)) with st := statusFailure k }

/-- A reserved command word: ST is written with ILLEGAL and nothing else changes (30_encoding.md R76, 60_exceptions.md R154). -/
def illegalCommand (s : State) : State := { s with st := statusIllegal }

end Sys2Proof.Machine
end

