-- ==== Sys2Proof/Machine/WireFormat.lean ====
section
/-! DEFINITION. The wire format of spec/30_encoding.md section 3 (R74, R75, R78): the byte of format V, the value a sequence of bytes
carries, and the length and the bytes of a packed value in closed form. The packer and the unpacker are written from their algorithms
(VarintPack.lean, VarintUnpack.lean); the claims compare them with this file. -/

namespace Sys2Proof.Machine

/-- Bit 7 of an encoded byte, `more` (30_encoding.md R74). -/
def wireMore (b : Byte) : Bool := b.getLsbD 7

/-- Bits 6:0 of an encoded byte, `payload` (30_encoding.md R74). -/
def wirePayload (b : Byte) : BitVec 7 := b.extractLsb' 0 7

/-- The encoded byte `{more, payload}` (30_encoding.md R74). -/
def wireByte (more : Bool) (payload : BitVec 7) : Byte := BitVec.ofBool more ++ payload

/-- The packed unsigned value of a byte sequence: "sum over i of (b_i[6:0] * 2^(7i))" (30_encoding.md R75). -/
def wireValue : List Byte → Nat
  | [] => 0
  | b :: bs => (wirePayload b).toNat + 2 ^ 7 * wireValue bs

/-- "`more = 1` in every byte but the last and `more = 0` in the last" (30_encoding.md R74). -/
def wireTerminated : List Byte → Bool
  | [] => false
  | [b] => !wireMore b
  | b :: bs => wireMore b && wireTerminated bs

/-- "the position of the highest set bit plus one" (30_encoding.md R78). -/
def bitLength (u : Nat) : Nat := if u = 0 then 0 else Nat.log2 u + 1

/-- `len(u)`: 1 for 0, otherwise `ceil(bitlen(u) / 7)` (30_encoding.md R78). -/
def wireLength (u : Nat) : Nat := if u = 0 then 1 else (bitLength u + 6) / 7

/-- Byte i of a packed value: `{more_i, u[7i+6 : 7i]}` with `more_i = 1` exactly when `i < n-1` (41_varint_pack.md R101, closed form). -/
def packedByte (u i : Nat) : Byte :=
  wireByte (decide (i + 1 < wireLength u)) (BitVec.ofNat 7 (u / 2 ^ (7 * i)))

/-- The bytes of a packed value, lowest address first (41_varint_pack.md R101, closed form). -/
def packedBytes (u : Nat) : List Byte := (List.range (wireLength u)).map (packedByte u)

end Sys2Proof.Machine
end

