-- ==== Sys2Proof/Machine/VarintPack.lean ====
section
/-! DEFINITION. Sub-block VP, the varint packer: the function `pack_W` (spec/41_varint_pack.md R100, R101) and the commands VPACK32 and VPACK64 (R104,
R105). -/

namespace Sys2Proof.Machine

/-- The loop of `pack_W` from byte index i on: u is what remains of the value, d the address of byte 0 (41_varint_pack.md R101). The first
argument bounds the rounds; `MAXLEN(W)` of them always suffice (log 14). -/
def packLoop {W aw : Nat} : Nat → BitVec W → BitVec aw → Nat → Port → Nat × Port
  | 0, _, _, i, p => (i, p)
  | fuel + 1, u, d, i, p =>
    let more := decide (u >>> 7 ≠ 0#W)
    let p' := memWrite p (addr d i) (wireByte more (u.setWidth 7))
    if more then packLoop fuel (u >>> 7) d (i + 1) p' else (i + 1, p')

/-- `pack_W(u, d)`: the number of bytes written, and the memory side after the writes (41_varint_pack.md R100, R101). -/
def pack {W aw : Nat} (u : BitVec W) (d : BitVec aw) (p : Port) : Nat × Port :=
  packLoop (maxLen W) u d 0 p

/-- An encode command of the unsigned value u: the bytes at DST, CNT and ST (10_state.md R39). -/
def packCommand {W : Nat} (u : BitVec W) (s : State) : State :=
  let r := pack u s.dst (port s)
  succeed (setCnt r.1 (setPort r.2 s))

/-- VPACK32 (41_varint_pack.md R104). -/
def execVpack32 (s : State) : Host.Outcome State Fault Refusal :=
  .next (packCommand (operand 32 s) s)

/-- VPACK64 (41_varint_pack.md R105). -/
def execVpack64 (s : State) : Host.Outcome State Fault Refusal :=
  .next (packCommand (operand 64 s) s)

end Sys2Proof.Machine
end

