-- ==== Sys2Proof/Machine/VarintUnpack.lean ====
section
/-! DEFINITION. Sub-block VU, the varint unpacker: the function `unpack_W` (spec/42_varint_unpack.md R110, R111) and the commands VUNPACK32 and
VUNPACK64 (R117, R118). -/

namespace Sys2Proof.Machine

/-- What `unpack_W` returns: `Ok(u, n)` or `Fail(kind)` (42_varint_unpack.md R110). -/
inductive Unpacked (W : Nat) where
  | ok (u : BitVec W) (n : Nat)
  | fail (k : FailKind)
  deriving DecidableEq, Repr

/-- The over-long test at byte index i: only at `MAXLEN-1`, "`more = 1 or (payload >>l (W - 7*i)) != 0`" (42_varint_unpack.md R111, R115). -/
def overlongAt (W i : Nat) (b : Byte) : Bool :=
  decide (i + 1 = maxLen W) && (wireMore b || decide (wirePayload b >>> (W - 7 * i) ≠ 0#7))

/-- The loop of `unpack_W` at byte index i: acc, p and r as in 42_varint_unpack.md R111, with the tests in the order of R116. The first argument
bounds the rounds: the over-long test ends the loop at index `MAXLEN-1`, so `MAXLEN(W)` of them always suffice (log 14). -/
def unpackLoop {W aw lw : Nat} : Nat → BitVec W → BitVec aw → BitVec lw → Nat → Port → Unpacked W × Port
  | 0, _, _, _, _, port => (.fail .overlong, port)
  | fuel + 1, acc, p, r, i, port =>
    if r = 0#lw then (.fail .exhausted, port)
    else
      let b := (memRead port p).1
      let port' := (memRead port p).2
      let acc' := acc ||| ((wirePayload b).setWidth W <<< (7 * i))
      if overlongAt W i b then (.fail .overlong, port')
      else if wireMore b then unpackLoop fuel acc' (p + 1#aw) (r - 1#lw) (i + 1) port'
      else (.ok acc' (i + 1), port')

/-- `unpack_W(pos, rem)` over a memory, and the memory side after its reads (42_varint_unpack.md R110, R111). -/
def unpack (W : Nat) {aw lw : Nat} (pos : BitVec aw) (rem : BitVec lw) (p : Port) : Unpacked W × Port :=
  unpackLoop (maxLen W) 0#W pos rem 0 p

/-- The end of a decode command: on success VOUT (the unpacked value as `finish` turns it), the cursor, CNT and ST (42_varint_unpack.md R117, R118); on
failure the writes of 60_exceptions.md R153. -/
def decodeEnd {W : Nat} (finish : BitVec W → BitVec W) (r : Unpacked W) (s : State) : State :=
  match r with
  | .ok u n => succeed (setCnt n (curCommit n (setVout (result (finish u)) s)))
  | .fail k => failDecode k s

/-- A decode command (42_varint_unpack.md R117, R118; 44_composite.md R142, R143). -/
def decodeCommand {W : Nat} (finish : BitVec W → BitVec W) (s : State) : State :=
  let cursor := curOpen s
  let r := unpack W cursor.1 cursor.2 (port s)
  decodeEnd finish r.1 (setPort r.2 s)

/-- VUNPACK32 (42_varint_unpack.md R117). -/
def execVunpack32 (s : State) : Host.Outcome State Fault Refusal :=
  .next (decodeCommand (W := 32) id s)

/-- VUNPACK64 (42_varint_unpack.md R118). -/
def execVunpack64 (s : State) : Host.Outcome State Fault Refusal :=
  .next (decodeCommand (W := 64) id s)

end Sys2Proof.Machine
end

