-- ==== Sys2Proof/Machine/Zigzag.lean ====
section
/-! DEFINITION. Sub-block ZZ, the zigzag encoder: its two functions (spec/40_zigzag.md R90, R91) and the four commands ZZENC32, ZZENC64, ZZDEC32,
ZZDEC64 (R92 to R95). -/

namespace Sys2Proof.Machine

/-- `(n << 1) XOR (n >>a (W-1))`, all on W bits (40_zigzag.md R90). -/
def zigzagEncode {W : Nat} (n : BitVec W) : BitVec W := (n <<< 1) ^^^ n.sshiftRight (W - 1)

/-- `(u >>l 1) XOR neg_W(u AND 1)`, all on W bits (40_zigzag.md R91). -/
def zigzagDecode {W : Nat} (u : BitVec W) : BitVec W := (u >>> 1) ^^^ (-(u &&& 1#W))

/-- A pure command with the given result: VOUT and ST (10_state.md R39). -/
def pureCommand {W : Nat} (v : BitVec W) (s : State) : State := succeed (setVout (result v) s)

/-- ZZENC32 (40_zigzag.md R92). -/
def execZzenc32 (s : State) : Host.Outcome State Fault Refusal :=
  .next (pureCommand (zigzagEncode (operand 32 s)) s)

/-- ZZENC64 (40_zigzag.md R93). -/
def execZzenc64 (s : State) : Host.Outcome State Fault Refusal :=
  .next (pureCommand (zigzagEncode (operand 64 s)) s)

/-- ZZDEC32 (40_zigzag.md R94). -/
def execZzdec32 (s : State) : Host.Outcome State Fault Refusal :=
  .next (pureCommand (zigzagDecode (operand 32 s)) s)

/-- ZZDEC64 (40_zigzag.md R95). -/
def execZzdec64 (s : State) : Host.Outcome State Fault Refusal :=
  .next (pureCommand (zigzagDecode (operand 64 s)) s)

end Sys2Proof.Machine
end

