-- ==== Sys2Proof/Machine/Composite.lean ====
section
/-! DEFINITION. The composite commands PUTZINT, PUTZLONG, READZINT, READZLONG (spec/44_composite.md R140 to R143). -/

namespace Sys2Proof.Machine

/-- PUTZINT (44_composite.md R140). -/
def execPutzint (s : State) : Host.Outcome State Fault Refusal :=
  .next (packCommand (zigzagEncode (operand 32 s)) s)

/-- PUTZLONG (44_composite.md R141). -/
def execPutzlong (s : State) : Host.Outcome State Fault Refusal :=
  .next (packCommand (zigzagEncode (operand 64 s)) s)

/-- READZINT (44_composite.md R142). -/
def execReadzint (s : State) : Host.Outcome State Fault Refusal :=
  .next (decodeCommand (W := 32) zigzagDecode s)

/-- READZLONG (44_composite.md R143). -/
def execReadzlong (s : State) : Host.Outcome State Fault Refusal :=
  .next (decodeCommand (W := 64) zigzagDecode s)

end Sys2Proof.Machine
end

