-- ==== Sys2Proof/Machine/Dispatch.lean ====
section
/-! DEFINITION. What each command does: one arm per constructor of Instr, one meaning per arm. -/

namespace Sys2Proof.Machine

def exec (i : Instr) (s : State) : Host.Outcome State Fault Refusal :=
  match i with
  | .zzenc32 => Sys2Proof.Machine.execZzenc32 s
  | .zzenc64 => Sys2Proof.Machine.execZzenc64 s
  | .zzdec32 => Sys2Proof.Machine.execZzdec32 s
  | .zzdec64 => Sys2Proof.Machine.execZzdec64 s
  | .vpack32 => Sys2Proof.Machine.execVpack32 s
  | .vpack64 => Sys2Proof.Machine.execVpack64 s
  | .vunpack32 => Sys2Proof.Machine.execVunpack32 s
  | .vunpack64 => Sys2Proof.Machine.execVunpack64 s
  | .putzint => Sys2Proof.Machine.execPutzint s
  | .putzlong => Sys2Proof.Machine.execPutzlong s
  | .readzint => Sys2Proof.Machine.execReadzint s
  | .readzlong => Sys2Proof.Machine.execReadzlong s

end Sys2Proof.Machine
end

