-- ==== Sys2Proof/Machine/Transactions.lean ====
section
/-! DEFINITION. What each action of the host and of the platform does (spec/10_state.md R25, spec/20_memory.md R60, spec/70_reset_and_hazards.md R170,
R186). -/

namespace Sys2Proof.Machine

/-- `reset()`: "writes every register with the value in the table of 10_state.md rule R38 ... and does nothing else"
(70_reset_and_hazards.md R170). -/
def resetBlock (s : State) : State :=
  { s with vin := 0, vout := 0, dst := 0, cnt := 0, pos := 0, rem := 0, st := 0b001#3 }

/-- The given next state, where a value written has the width of its register (10_state.md R25; log 9). -/
def ifFits (width v : Nat) (t : State) : Host.Outcome State Fault Refusal :=
  if v < 2 ^ width then .next t else .refused .valueTooWide

/-- `wr(reg, v)`: `x[reg] <- v` for the four registers the host may write; for the others, and for register number 7, there is no such
transaction (10_state.md R25, D20). -/
def hostWrite (reg : BitVec 3) (v : Nat) (s : State) : Host.Outcome State Fault Refusal :=
  match regOfNumber reg with
  | none => .refused .noSuchRegister
  | some .vin => ifFits (regWidth s .vin) v { s with vin := BitVec.ofNat 64 v }
  | some .dst => ifFits (regWidth s .dst) v { s with dst := BitVec.ofNat s.aw v }
  | some .pos => ifFits (regWidth s .pos) v { s with pos := BitVec.ofNat s.aw v }
  | some .rem => ifFits (regWidth s .rem) v { s with rem := BitVec.ofNat s.lw v }
  | some .vout => .refused .registerNotHostWritable
  | some .cnt => .refused .registerNotHostWritable
  | some .st => .refused .registerNotHostWritable

/-- `rd(reg)`: returns the register and changes nothing of the machine (10_state.md R25). -/
def hostRead (reg : BitVec 3) (s : State) : Host.Outcome State Fault Refusal :=
  match regOfNumber reg with
  | none => .refused .noSuchRegister
  | some r => .next { s with returned := s.returned ++ [.rd reg (regValue s r)] }

/-- `mw(a, v)`: `MEM[a] <- v` (20_memory.md R60). -/
def hostMemWrite (a : Nat) (v : Byte) (s : State) : Host.Outcome State Fault Refusal :=
  if a < 2 ^ s.aw then .next { s with mem := s.mem.write a v } else .fault .noSuchAddress

/-- `mr(a)`: returns `MEM[a]` (20_memory.md R60). -/
def hostMemRead (a : Nat) (s : State) : Host.Outcome State Fault Refusal :=
  if a < 2 ^ s.aw then .next { s with returned := s.returned ++ [.mr a (s.mem.read a)] } else .fault .noSuchAddress

/-- `cmd(c)`: "The command word is decoded first. A reserved word gives ILLEGAL and nothing else is examined" (60_exceptions.md R158,
30_encoding.md R72, R76). -/
def issueCommand (c : CommandWord) (s : State) : Host.Outcome State Fault Refusal :=
  match decode c with
  | .ok i => exec i s
  | .error _ => .next (illegalCommand s)

/-- One action of a run (70_reset_and_hazards.md R186). -/
def perform (a : HostAction) (s : State) : Host.Outcome State Fault Refusal :=
  match a with
  | .reset => .next (resetBlock s)
  | .wr reg v => hostWrite reg v s
  | .rd reg => hostRead reg s
  | .cmd c => issueCommand c s
  | .mw a v => hostMemWrite a v s
  | .mr a => hostMemRead a s

/-- The state once the host's next action has been taken from the list. -/
def takeAction (rest : List HostAction) (s : State) : State := { s with pending := rest }

/-- A state in which the host's next action is to issue the command word. -/
def placeCommand (c : CommandWord) (s : State) : State := { s with pending := .cmd c :: s.pending }

end Sys2Proof.Machine
end

