-- ==== Sys2Proof/Machine/Step.lean ====
section
/-! DEFINITION. One step: the next action of the host (spec/70_reset_and_hazards.md R186). -/

namespace Sys2Proof.Machine

/-- One step: the host's next action is taken and performed. With no action left the run is over, and the block "is idle and keeps its seven
registers" (60_exceptions.md R163; log 2). -/
def step (s : State) : Host.Outcome State Fault Refusal :=
  match s.pending with
  | [] => .next s
  | a :: rest => perform a (takeAction rest s)

/-- The state in which the very next step issues the command word `w`, the host's other actions after it: the block fetches nothing, a command is
issued to it (10_state.md R26, 00_scope.md R3; log 2). -/
def State.withFetchWord (s : State) (_nbits w : Nat) : State := placeCommand (BitVec.ofNat 8 w) s

end Sys2Proof.Machine
end

