-- ==== Sys2Proof/Machine/Script.lean ====
section
/-! DEFINITION. The script lines of spec/30_encoding.md R80 and the function surface of R79, as lists of host actions. -/

namespace Sys2Proof.Machine

/-- The mnemonic of a command (30_encoding.md R70). -/
def mnemonic : Instr → String
  | .zzenc32 => "ZZENC32"
  | .zzenc64 => "ZZENC64"
  | .zzdec32 => "ZZDEC32"
  | .zzdec64 => "ZZDEC64"
  | .vpack32 => "VPACK32"
  | .vpack64 => "VPACK64"
  | .vunpack32 => "VUNPACK32"
  | .vunpack64 => "VUNPACK64"
  | .putzint => "PUTZINT"
  | .putzlong => "PUTZLONG"
  | .readzint => "READZINT"
  | .readzlong => "READZLONG"

/-- The command of a mnemonic: "every `cmd` line is one of the twelve commands" (30_encoding.md R80). -/
def ofMnemonic (m : String) : Option Instr := Instr.all.find? (fun i => mnemonic i == m)

/-- One line of a script (30_encoding.md R80). -/
inductive ScriptLine (aw : Nat) where
  /-- `wr NAME, value`. -/
  | wr (r : Reg) (v : Int)
  /-- `rd NAME`. -/
  | rd (r : Reg)
  /-- `cmd MNEMONIC`. -/
  | cmd (i : Instr)
  /-- `cmd 0xNN`, "the only way to write a reserved word". -/
  | cmdWord (c : CommandWord)
  /-- `mw addr, [b0 b1 ...]`. -/
  | mw (a : BitVec aw) (bs : List Byte)
  /-- `mr addr, k`. -/
  | mr (a : BitVec aw) (k : Nat)
  deriving DecidableEq, Repr

/-- The actions of `mw addr, [b0 b1 ...]`: `MEM[addr +_AW i] <- b_i`, one per byte, from index i on (30_encoding.md R80). -/
def memWriteActions {aw : Nat} (a : BitVec aw) : Nat → List Byte → List HostAction
  | _, [] => []
  | i, b :: bs => .mw (addr a i).toNat b :: memWriteActions a (i + 1) bs

/-- The actions of a line. "a negative decimal `-d` written to VIN stands for `bits_64(-d)`"; written to another register it stands for
nothing (30_encoding.md R80). -/
def scriptActions {aw : Nat} : ScriptLine aw → Option (List HostAction)
  | .wr r v =>
    if 0 ≤ v then some [.wr (regNumber r) v.toNat]
    else if r = .vin then some [.wr (regNumber .vin) (BitVec.ofInt 64 v).toNat]
    else none
  | .rd r => some [.rd (regNumber r)]
  | .cmd i => some [.cmd (encode i)]
  | .cmdWord c => some [.cmd c]
  | .mw a bs => some (memWriteActions a 0 bs)
  | .mr a k => some ((List.range k).map (fun i => .mr (addr a i).toNat))

/-- `cur_load(pos, len)` (43_cursor_tracker.md R126). -/
def curLoadActions (pos len : Nat) : List HostAction := [.wr (regNumber .pos) pos, .wr (regNumber .rem) len]

/-- A call of `PutZInt`, `PutZLong` or `pack`: the value and `outBuffer` in, the byte count out (30_encoding.md R79). -/
def putCall (i : Instr) (value outBuffer : Nat) : List HostAction :=
  [.wr (regNumber .vin) value, .wr (regNumber .dst) outBuffer, .cmd (encode i), .rd (regNumber .cnt)]

/-- A call of `ReadZInt`, `ReadZLong` or `unpack`: the cursor in, the outcome, the value and the cursor out (30_encoding.md R79). -/
def readCall (i : Instr) (pos len : Nat) : List HostAction :=
  curLoadActions pos len ++
    [.cmd (encode i), .rd (regNumber .st), .rd (regNumber .vout), .rd (regNumber .pos), .rd (regNumber .rem)]

/-- A call of `zigzagEncode` or `zigzagDecode` (30_encoding.md R79). -/
def zigzagCall (i : Instr) (value : Nat) : List HostAction :=
  [.wr (regNumber .vin) value, .cmd (encode i), .rd (regNumber .vout)]

end Sys2Proof.Machine
end

