-- ==== Sys2Proof/Safety.lean ====
section
/-! DEFINITION. The terms claims use: the invariant of the machine, runs that never stop, the host's obligations (spec/70_reset_and_hazards.md), what a
window holds (spec/42_varint_unpack.md R112 to R115), and the states that follow a command as its rule describes them. Nothing here is used by the machine. -/

namespace Sys2Proof.Claims

open Sys2Proof.Machine

/-- 10_state.md R32: `x[ST.OK] = 1` exactly when `x[ST.ERR] = 0`. -/
abbrev statusLegal (st : BitVec 3) : Prop := statusOk st = true ↔ statusErr st = 0#2

/-- The invariant of the machine: the parameters are legal (00_scope.md R7), ST and CNT hold legal values (10_state.md R32, R28), and MEM is in
canonical form with every listed address in the address space (20_memory.md R50). -/
abbrev Inv (s : State) : Prop :=
  Config.legal s.aw s.lw ∧ statusLegal s.st ∧ s.cnt.toNat ≤ 10 ∧ s.mem.wf ∧ s.mem.within s.aw

/-- An action that is one of the transactions of 10_state.md R25, 20_memory.md R60 or 70_reset_and_hazards.md R170, on a block with these parameters. -/
def actionDefined (aw lw : Nat) : HostAction → Bool
  | .reset => true
  | .wr reg v =>
    (reg == 0 && decide (v < 2 ^ 64)) || (reg == 2 && decide (v < 2 ^ aw)) || (reg == 4 && decide (v < 2 ^ aw)) ||
      (reg == 5 && decide (v < 2 ^ lw))
  | .rd reg => reg != 7
  | .cmd _ => true
  | .mw a _ => decide (a < 2 ^ aw)
  | .mr a => decide (a < 2 ^ aw)

/-- Every action the host is going to make is a defined one. -/
abbrev hostKeepsToTransactions (s : State) : Prop := ∀ a ∈ s.pending, actionDefined s.aw s.lw a = true

/-- A run that meets no fault and no refusal, however far it goes. -/
def SafeRun (s : State) : Prop := ∀ k, ∃ t, Host.Core.run core k s = .next t

/-- The host's obligation for an encode of width W: the MAXLEN(W) bytes at DST exist and do not wrap (70_reset_and_hazards.md R176, R180). -/
abbrev outputCapacity (W : Nat) (s : State) : Prop := s.dst.toNat + maxLen W ≤ 2 ^ s.aw

/-- The host's obligation for a decode: the window exists and does not wrap (70_reset_and_hazards.md R180). -/
abbrev windowInMemory (s : State) : Prop := s.pos.toNat + s.rem.toNat ≤ 2 ^ s.aw

/-- The code of a signed integer: `2 * s` for `s >= 0` and `-2 * s - 1` for `s < 0` (40_zigzag.md R90, "As integers"). -/
def foldSigned (z : Int) : Nat := if 0 ≤ z then (2 * z).toNat else (-2 * z - 1).toNat

/-- The signed integer of a code: `u / 2` for even u and `-(u + 1) / 2` for odd u (40_zigzag.md R91, "As integers"). -/
def unfoldCode (u : Nat) : Int := if u % 2 = 0 then (u / 2 : Nat) else -((u + 1) / 2 : Nat)

/-- The byte of the window at index k. -/
def windowByte {aw : Nat} (m : Memory) (pos : BitVec aw) (k : Nat) : Byte := m.read (addr pos k).toNat

/-- The first n bytes from POS on. -/
def windowBytes {aw : Nat} (m : Memory) (pos : BitVec aw) (n : Nat) : List Byte := (List.range n).map (windowByte m pos)

/-- A payload bit at or above value bit W in the byte at index MAXLEN(W)-1: "`b AND 0x70 != 0` for W = 32; `b AND 0x7E != 0` for W = 64"
(42_varint_unpack.md R115). -/
def excessPayload (W : Nat) (b : Byte) : Prop := b &&& (if W = 32 then 0x70#8 else 0x7E#8) ≠ 0#8

/-- The condition of 42_varint_unpack.md R112 for success with the value u, n bytes consumed. -/
def windowHolds {aw : Nat} (W : Nat) (m : Memory) (pos : BitVec aw) (rem : Nat) (u n : Nat) : Prop :=
  ∃ t, n = t + 1 ∧ t + 1 ≤ min rem (maxLen W) ∧ (∀ k < t, wireMore (windowByte m pos k) = true) ∧ wireMore (windowByte m pos t) = false ∧
    (t + 1 = maxLen W → ¬ excessPayload W (windowByte m pos t)) ∧ u = wireValue (windowBytes m pos (t + 1))

/-- The condition of 42_varint_unpack.md R114 for EXHAUSTED. -/
def windowExhausted {aw : Nat} (W : Nat) (m : Memory) (pos : BitVec aw) (rem : Nat) : Prop :=
  rem < maxLen W ∧ ∀ k < rem, wireMore (windowByte m pos k) = true

/-- The condition of 42_varint_unpack.md R115 for OVERLONG. -/
def windowOverlong {aw : Nat} (W : Nat) (m : Memory) (pos : BitVec aw) (rem : Nat) : Prop :=
  maxLen W ≤ rem ∧ (∀ k < maxLen W - 1, wireMore (windowByte m pos k) = true) ∧
    (wireMore (windowByte m pos (maxLen W - 1)) = true ∨ excessPayload W (windowByte m pos (maxLen W - 1)))

/-- n byte reads at `pos +_AW 0, 1, 2, ...`, in that order (20_memory.md R57). -/
def readsFrom {aw : Nat} (pos : BitVec aw) (n : Nat) : List Access := (List.range n).map (fun k => .read (addr pos k).toNat)

/-- The byte writes of the packed value u at `d +_AW 0, 1, 2, ...`, in that order (41_varint_pack.md R102). -/
def writesOf {aw : Nat} (d : BitVec aw) (u : Nat) : List Access :=
  (List.range (wireLength u)).map (fun k => .write (addr d k).toNat (packedByte u k))

/-- The state t follows from s by an encode of the value u: the bytes of u stand at DST and every other byte of MEM reads as before, CNT holds their number, ST
says success, and nothing else changed (41_varint_pack.md R104, R105; 44_composite.md R140, R141). -/
def encodedInto (u : Nat) (s t : State) : Prop :=
  ∃ m : Memory,
    t = { s with mem := m, trace := s.trace ++ writesOf s.dst u, cnt := BitVec.ofNat 4 (wireLength u), st := 0b001#3 } ∧
    (∀ i < wireLength u, m.read (addr s.dst i).toNat = packedByte u i) ∧
    (∀ a, (∀ i < wireLength u, a ≠ (addr s.dst i).toNat) → m.read a = s.mem.read a)

/-- The state that follows s by a decode that consumed n bytes and gives VOUT the value v (42_varint_unpack.md R117, R118; 44_composite.md R142, R143). -/
def decodedFrom (s : State) (v : Value) (n : Nat) : State :=
  { s with
    vout := v, pos := addr s.pos n, rem := s.rem - BitVec.ofNat s.lw n, cnt := BitVec.ofNat 4 n, st := 0b001#3,
    trace := s.trace ++ readsFrom s.pos n }

/-- The state that follows s by a decode failure with status `st` after `n` byte reads, VOUT left with the value v (60_exceptions.md R153). -/
def failedFrom (s : State) (v : Value) (st : BitVec 3) (n : Nat) : State :=
  { s with
    vout := v, rem := 0, cnt := 0, st := st, trace := s.trace ++ readsFrom s.pos n, draws := s.draws + 1 }

end Sys2Proof.Claims
end

