-- ==== Sys2Proof/Certificates/Slice0/Obligations.lean ====
section
/-! DEFINITION. The statements for the provers: the numbered rules of spec/ that say what a command, a host action or the machine does. The terms they use
that are not the machine's own are in Safety.lean. -/

open Sys2Proof Sys2Proof.Machine Sys2Proof.Claims

/-! ## Command words -/

/-- 30_encoding.md R70: a word is a command exactly when the table has it, and it is that command. -/
def Obligations.CommandTableIsDecodedExactly : Prop :=
  ∀ (c : CommandWord) (i : Instr), decode c = .ok i ↔
    (c, i) ∈ [(0b00000010#8, Instr.zzenc32), (0b00000011#8, .zzenc64), (0b00000100#8, .zzdec32), (0b00000101#8, .zzdec64),
      (0b00000110#8, .vpack32), (0b00000111#8, .vpack64), (0b00001000#8, .vunpack32), (0b00001001#8, .vunpack64),
      (0b00001010#8, .putzint), (0b00001011#8, .putzlong), (0b00001100#8, .readzint), (0b00001101#8, .readzlong)]

/-- Decoder and encoder agree both ways, and every command is well formed (30_encoding.md R70). -/
def Obligations.DecodeAndEncodeAgree : Prop :=
  (∀ i : Instr, i.wf ∧ decode (encode i) = .ok i) ∧ ∀ (c : CommandWord) (i : Instr), decode c = .ok i → encode i = c

/-- 30_encoding.md R76: the 244 other words write ILLEGAL to ST and change nothing else; no access to MEM is made. -/
def Obligations.ReservedWordWritesIllegalOnly : Prop :=
  ((List.range 256).filter fun n => decide (n < 2 ∨ 13 < n)).length = 244 ∧
  ∀ (s : State) (c : CommandWord) (rest : List HostAction), (c.toNat < 2 ∨ 13 < c.toNat) →
    step { s with pending := .cmd c :: rest } = .next { s with pending := rest, st := 0b110#3 }

/-- A step whose action is to issue the word of a command is that command on the state less the action (the list of actions is the model's, log 2). -/
def Obligations.StepRunsTheIssuedCommand : Prop :=
  ∀ (s : State) (c : CommandWord) (i : Instr) (rest : List HostAction), s.pending = .cmd c :: rest → decode c = .ok i →
    step s = exec i { s with pending := rest }

/-- With no action left the block idles (60_exceptions.md R163; the model's choice, log 2). -/
def Obligations.IdleBlockKeepsItsState : Prop :=
  ∀ s : State, s.pending = [] → step s = .next s

/-! ## Reset and the host's actions -/

/-- 70_reset_and_hazards.md R170: `reset()` writes every register and does nothing else; a step of its own. -/
def Obligations.ResetWritesEveryRegister : Prop :=
  ∀ (s : State) (rest : List HostAction), step { s with pending := .reset :: rest } =
    .next { s with pending := rest, vin := 0, vout := 0, dst := 0, cnt := 0, pos := 0, rem := 0, st := 0b001#3 }

/-- 10_state.md R38: what the registers hold in the state after reset, for every legal pair of parameters and at the spec's defaults. -/
def Obligations.ResetStateHoldsTheTable : Prop :=
  State.reset = State.resetWith 32 32 ∧
  ∀ aw lw : Nat, Config.legal aw lw →
    (State.resetWith aw lw).aw = aw ∧ (State.resetWith aw lw).lw = lw ∧ (State.resetWith aw lw).vin = 0 ∧ (State.resetWith aw lw).vout = 0 ∧
    (State.resetWith aw lw).dst.toNat = 0 ∧ (State.resetWith aw lw).cnt = 0 ∧ (State.resetWith aw lw).pos.toNat = 0 ∧
    (State.resetWith aw lw).rem.toNat = 0 ∧ statusOk (State.resetWith aw lw).st = true ∧ statusErr (State.resetWith aw lw).st = 0

/-- 10_state.md R25: the three transactions, each a step of its own. `wr` reaches VIN, DST, POS and REM and nothing else; a `wr` to register 1, 3, 6 or 7
and an `rd` of register 7 are refused; `rd` returns the register and changes nothing; `cmd` issues the word. -/
def Obligations.HostRegisterTransactions : Prop :=
  ∀ (s : State) (rest : List HostAction),
    (∀ v : BitVec 64, step { s with pending := .wr 0 v.toNat :: rest } = .next { s with pending := rest, vin := v }) ∧
    (∀ v : BitVec s.aw, step { s with pending := .wr 2 v.toNat :: rest } = .next { s with pending := rest, dst := v }) ∧
    (∀ v : BitVec s.aw, step { s with pending := .wr 4 v.toNat :: rest } = .next { s with pending := rest, pos := v }) ∧
    (∀ v : BitVec s.lw, step { s with pending := .wr 5 v.toNat :: rest } = .next { s with pending := rest, rem := v }) ∧
    (∀ v : Nat, step { s with pending := .wr 1 v :: rest } = .refused .registerNotHostWritable) ∧
    (∀ v : Nat, step { s with pending := .wr 3 v :: rest } = .refused .registerNotHostWritable) ∧
    (∀ v : Nat, step { s with pending := .wr 6 v :: rest } = .refused .registerNotHostWritable) ∧
    (∀ v : Nat, step { s with pending := .wr 7 v :: rest } = .refused .noSuchRegister) ∧
    step { s with pending := .rd 0 :: rest } = .next { s with pending := rest, returned := s.returned ++ [.rd 0 s.vin.toNat] } ∧
    step { s with pending := .rd 1 :: rest } = .next { s with pending := rest, returned := s.returned ++ [.rd 1 s.vout.toNat] } ∧
    step { s with pending := .rd 2 :: rest } = .next { s with pending := rest, returned := s.returned ++ [.rd 2 s.dst.toNat] } ∧
    step { s with pending := .rd 3 :: rest } = .next { s with pending := rest, returned := s.returned ++ [.rd 3 s.cnt.toNat] } ∧
    step { s with pending := .rd 4 :: rest } = .next { s with pending := rest, returned := s.returned ++ [.rd 4 s.pos.toNat] } ∧
    step { s with pending := .rd 5 :: rest } = .next { s with pending := rest, returned := s.returned ++ [.rd 5 s.rem.toNat] } ∧
    step { s with pending := .rd 6 :: rest } = .next { s with pending := rest, returned := s.returned ++ [.rd 6 s.st.toNat] } ∧
    step { s with pending := .rd 7 :: rest } = .refused .noSuchRegister ∧
    (∀ c : CommandWord, step { s with pending := .cmd c :: rest } = issueCommand c { s with pending := rest })

/-- A `wr` of a value that does not fit its register is refused: the model's reading of "`v` has exactly the register's width" (10_state.md R25; DEDUCED, log 9). -/
def Obligations.TooWideValuesAreRefused : Prop :=
  ∀ (s : State) (rest : List HostAction),
    (∀ v : Nat, 2 ^ 64 ≤ v → step { s with pending := .wr 0 v :: rest } = .refused .valueTooWide) ∧
    (∀ v : Nat, 2 ^ s.aw ≤ v → step { s with pending := .wr 2 v :: rest } = .refused .valueTooWide) ∧
    (∀ v : Nat, 2 ^ s.aw ≤ v → step { s with pending := .wr 4 v :: rest } = .refused .valueTooWide) ∧
    (∀ v : Nat, 2 ^ s.lw ≤ v → step { s with pending := .wr 5 v :: rest } = .refused .valueTooWide)

/-- 20_memory.md R60, R53: `mw` writes one byte of MEM and nothing else, `mr` returns one and changes nothing; each is a step of its own. -/
def Obligations.HostMemoryActions : Prop :=
  ∀ (s : State) (rest : List HostAction), s.mem.wf →
    (∀ (a : BitVec s.aw) (v : Byte), ∃ m : Memory,
      step { s with pending := .mw a.toNat v :: rest } = .next { s with pending := rest, mem := m } ∧
      m.read a.toNat = v ∧ ∀ b, b ≠ a.toNat → m.read b = s.mem.read b) ∧
    (∀ a : BitVec s.aw, step { s with pending := .mr a.toNat :: rest } =
      .next { s with pending := rest, returned := s.returned ++ [.mr a.toNat (s.mem.read a.toNat)] })

/-- A memory action at a number that is no AW-bit address faults: the model's choice where 20_memory.md R50 gives MEM no such byte (log 10). -/
def Obligations.NumbersThatAreNoAddressFault : Prop :=
  ∀ (s : State) (rest : List HostAction) (a : Nat), 2 ^ s.aw ≤ a →
    (∀ v : Byte, step { s with pending := .mw a v :: rest } = .fault .noSuchAddress) ∧
    step { s with pending := .mr a :: rest } = .fault .noSuchAddress

/-- 20_memory.md R51: every buffer address a command forms is a sum modulo 2^AW. -/
def Obligations.BufferAddressesWrap : Prop :=
  ∀ (aw : Nat) (a : BitVec aw) (k : Nat), (addr a k).toNat = (a.toNat + k) % 2 ^ aw

/-- 70_reset_and_hazards.md R186: a run whose actions are all defined transactions never faults, is never refused, and is over when its actions are. -/
def Obligations.DefinedActionsNeverStop : Prop :=
  ∀ s : State, hostKeepsToTransactions s →
    SafeRun s ∧ ∃ t, Host.Core.run core s.pending.length s = .next t ∧ t.pending = []

/-- 70_reset_and_hazards.md R186, one step of it, from every state: while the host keeps to the defined transactions a step goes on, the host still keeps to
them, and the step has taken exactly the next action (the list of actions is the model's, log 2). -/
def Obligations.StepKeepsTheHostToTransactions : Prop :=
  ∀ s : State, hostKeepsToTransactions s →
    ∃ t, step s = .next t ∧ hostKeepsToTransactions t ∧ t.pending = s.pending.tail

/-! ## The invariant -/

/-- The state after reset meets the invariant, at every legal pair of parameters. -/
def Obligations.ResetMeetsTheInvariant : Prop :=
  Inv State.reset ∧ ∀ aw lw : Nat, Config.legal aw lw → Inv (State.resetWith aw lw)

/-- Every step keeps the invariant: legal parameters, OK = 1 exactly when ERR = 0 (10_state.md R32), CNT at most 10 (R28), MEM canonical and in the address
space. -/
def Obligations.EveryStepKeepsTheInvariant : Prop :=
  ∀ s t : State, Inv s → step s = .next t → Inv t

/-- No step changes the parameters (00_scope.md R7; log 1). -/
def Obligations.StepKeepsTheParameters : Prop :=
  ∀ s t : State, step s = .next t → t.aw = s.aw ∧ t.lw = s.lw

/-- Two memories in canonical form that read alike are the same data (the model's form of MEM, log 6). -/
def Obligations.CanonicalMemoriesReadingAlikeAreEqual : Prop :=
  ∀ m m' : Memory, m.wf → m'.wf → (∀ a, m.read a = m'.read a) → m = m'

/-! ## Zigzag -/

/-- 40_zigzag.md R92: ZZENC32, with the code as an integer (R90). -/
def Obligations.Zzenc32FoldsTheLowHalf : Prop :=
  decode 0b00000010#8 = .ok .zzenc32 ∧
  ∀ s : State, ∃ v : BitVec 64, exec .zzenc32 s = .next { s with vout := v, st := 0b001#3 } ∧
    v.toNat = foldSigned (s.vin.extractLsb' 0 32).toInt

/-- 40_zigzag.md R93: ZZENC64. -/
def Obligations.Zzenc64FoldsTheValue : Prop :=
  decode 0b00000011#8 = .ok .zzenc64 ∧
  ∀ s : State, ∃ v : BitVec 64, exec .zzenc64 s = .next { s with vout := v, st := 0b001#3 } ∧ v.toNat = foldSigned s.vin.toInt

/-- 40_zigzag.md R94: ZZDEC32; the upper half of VOUT is 0, not a sign extension. -/
def Obligations.Zzdec32UnfoldsTheLowHalf : Prop :=
  decode 0b00000100#8 = .ok .zzdec32 ∧
  ∀ s : State, ∃ v : BitVec 64, exec .zzdec32 s = .next { s with vout := v, st := 0b001#3 } ∧
    (v.extractLsb' 0 32).toInt = unfoldCode (s.vin.extractLsb' 0 32).toNat ∧ v.extractLsb' 32 32 = 0#32

/-- 40_zigzag.md R95: ZZDEC64. -/
def Obligations.Zzdec64UnfoldsTheValue : Prop :=
  decode 0b00000101#8 = .ok .zzdec64 ∧
  ∀ s : State, ∃ v : BitVec 64, exec .zzdec64 s = .next { s with vout := v, st := 0b001#3 } ∧ v.toInt = unfoldCode s.vin.toNat

/-- 40_zigzag.md R90, R91: the two functions by formula, bit by bit and as integers; each is a bijection. -/
def Obligations.ZigzagBitsAndIntegers : Prop :=
  ∀ W : Nat, W = 32 ∨ W = 64 → ∀ x : BitVec W,
    (zigzagEncode x = (x <<< 1) ^^^ x.sshiftRight (W - 1)) ∧
    (zigzagEncode x).getLsbD 0 = x.getLsbD (W - 1) ∧
    (∀ j, 1 ≤ j → j ≤ W - 1 → (zigzagEncode x).getLsbD j = (x.getLsbD (j - 1) ^^ x.getLsbD (W - 1))) ∧
    (0 ≤ x.toInt → ((zigzagEncode x).toNat : Int) = 2 * x.toInt) ∧ (x.toInt < 0 → ((zigzagEncode x).toNat : Int) = -2 * x.toInt - 1) ∧
    (zigzagDecode x = (x >>> 1) ^^^ (-(x &&& 1#W))) ∧
    (zigzagDecode x).getLsbD (W - 1) = x.getLsbD 0 ∧
    (∀ j, j + 2 ≤ W → (zigzagDecode x).getLsbD j = (x.getLsbD (j + 1) ^^ x.getLsbD 0)) ∧
    (x.toNat % 2 = 0 → (zigzagDecode x).toInt = (x.toNat / 2 : Nat)) ∧
    (x.toNat % 2 = 1 → (zigzagDecode x).toInt = -((x.toNat + 1) / 2 : Nat)) ∧
    zigzagDecode (zigzagEncode x) = x ∧ zigzagEncode (zigzagDecode x) = x

/-- 40_zigzag.md R96, laws 1 to 6. -/
def Obligations.ZigzagLaws : Prop :=
  (∀ W : Nat, W = 32 ∨ W = 64 →
    (∀ x : BitVec W, zigzagDecode (zigzagEncode x) = x ∧ zigzagEncode (zigzagDecode x) = x) ∧
    (∀ k : Nat, k < 2 ^ (W - 1) →
      (zigzagEncode (BitVec.ofInt W k)).toNat = 2 * k ∧ (zigzagEncode (BitVec.ofInt W (-(k : Int) - 1))).toNat = 2 * k + 1) ∧
    ((zigzagEncode (BitVec.ofInt W (2 ^ (W - 1) - 1))).toNat = 2 ^ W - 2 ∧
      (zigzagEncode (BitVec.ofInt W (-2 ^ (W - 1)))).toNat = 2 ^ W - 1) ∧
    (∀ x : BitVec W, zigzagEncode (~~~x) = zigzagEncode x ^^^ 1#W) ∧
    (∀ (x : BitVec W) (k : Nat), 1 ≤ k → k ≤ W →
      ((zigzagEncode x).toNat < 2 ^ k ↔ -2 ^ (k - 1) ≤ x.toInt ∧ x.toInt < 2 ^ (k - 1)))) ∧
  ∀ i : Instr, i.isPure = true → ∀ s : State, ∃ t, exec i s = .next t ∧ t.st = 0b001#3

/-! ## Encode commands -/

/-- 41_varint_pack.md R104: VPACK32. -/
def Obligations.Vpack32StoresTheVarint : Prop :=
  decode 0b00000110#8 = .ok .vpack32 ∧
  ∀ s : State, Config.legal s.aw s.lw → s.mem.wf →
    ∃ t, exec .vpack32 s = .next t ∧ encodedInto (s.vin.extractLsb' 0 32).toNat s t

/-- 41_varint_pack.md R105: VPACK64. -/
def Obligations.Vpack64StoresTheVarint : Prop :=
  decode 0b00000111#8 = .ok .vpack64 ∧
  ∀ s : State, Config.legal s.aw s.lw → s.mem.wf → ∃ t, exec .vpack64 s = .next t ∧ encodedInto s.vin.toNat s t

/-- 44_composite.md R140: PUTZINT. -/
def Obligations.PutzintStoresTheFoldedVarint : Prop :=
  decode 0b00001010#8 = .ok .putzint ∧
  ∀ s : State, Config.legal s.aw s.lw → s.mem.wf →
    ∃ t, exec .putzint s = .next t ∧ encodedInto (foldSigned (s.vin.extractLsb' 0 32).toInt) s t

/-- 44_composite.md R141: PUTZLONG; and for a value of the 32-bit range it writes what PUTZINT writes. -/
def Obligations.PutzlongStoresTheFoldedVarint : Prop :=
  decode 0b00001011#8 = .ok .putzlong ∧
  (∀ s : State, Config.legal s.aw s.lw → s.mem.wf →
    ∃ t, exec .putzlong s = .next t ∧ encodedInto (foldSigned s.vin.toInt) s t) ∧
  ∀ (s : State) (v : BitVec 32), exec .putzlong { s with vin := v.signExtend 64 } = exec .putzint { s with vin := v.signExtend 64 }

/-- 60_exceptions.md R151: pure commands and encode commands cannot fail, whatever the state. -/
def Obligations.PureAndEncodeCommandsCannotFail : Prop :=
  ∀ i : Instr, i.isPure = true ∨ i.isEncode = true → ∀ s : State, ∃ t, exec i s = .next t ∧ t.st = 0b001#3

/-- 30_encoding.md R74, R75, R78: the bytes of a packed value, of which the encode commands' statements speak, are terminated, carry the value, and are as
many as the length rule says; the last group is zero only in the encoding of 0. -/
def Obligations.PackedBytesCarryTheValue : Prop :=
  ∀ u : Nat, wireTerminated (packedBytes u) = true ∧ wireValue (packedBytes u) = u ∧ (packedBytes u).length = wireLength u ∧
    (wireLength u = 1 ↔ u < 2 ^ 7) ∧ (∀ k, 2 ≤ k → (wireLength u = k ↔ 2 ^ (7 * (k - 1)) ≤ u ∧ u < 2 ^ (7 * k))) ∧
    (u ≠ 0 → wirePayload (packedByte u (wireLength u - 1)) ≠ 0#7)

/-- 41_varint_pack.md R103, properties 1 and 2: the length is bounded, the maximum is reached exactly from `2^(7 * (MAXLEN - 1))` on, and no byte sequence of
the wire format that carries the value is shorter. -/
def Obligations.PackIsBoundedAndMinimal : Prop :=
  ∀ W : Nat, W = 32 ∨ W = 64 → ∀ (aw : Nat) (u : BitVec W) (d : BitVec aw) (p : Port),
    1 ≤ (pack u d p).1 ∧ (pack u d p).1 ≤ maxLen W ∧
    ((pack u d p).1 = maxLen W ↔ 2 ^ (7 * (maxLen W - 1)) ≤ u.toNat) ∧
    ∀ bs : List Byte, wireTerminated bs = true → wireValue bs = u.toNat → (pack u d p).1 ≤ bs.length

/-- 41_varint_pack.md R103, property 5: the packers of the two widths write the same bytes of a value that fits both. -/
def Obligations.PackersOfBothWidthsAgree : Prop :=
  ∀ (aw : Nat) (u : BitVec 32) (d : BitVec aw) (p : Port), pack u d p = pack (u.setWidth 64) d p

/-- The encoded length of a signed value (95_test_vectors.md 2.3; 40_zigzag.md R96 law 5 with 30_encoding.md R78). -/
def Obligations.EncodedLengthBySignedRange : Prop :=
  (∀ s : State, ∃ t, exec .putzint s = .next t ∧ 1 ≤ t.cnt.toNat ∧ t.cnt.toNat ≤ 5 ∧
    ∀ k : Nat, 1 ≤ k → k ≤ 4 → (t.cnt.toNat ≤ k ↔
      -2 ^ (7 * k - 1) ≤ (s.vin.extractLsb' 0 32).toInt ∧ (s.vin.extractLsb' 0 32).toInt < 2 ^ (7 * k - 1))) ∧
  (∀ s : State, ∃ t, exec .putzlong s = .next t ∧ 1 ≤ t.cnt.toNat ∧ t.cnt.toNat ≤ 10 ∧
    ∀ k : Nat, 1 ≤ k → k ≤ 9 → (t.cnt.toNat ≤ k ↔ -2 ^ (7 * k - 1) ≤ s.vin.toInt ∧ s.vin.toInt < 2 ^ (7 * k - 1)))

/-- 70_reset_and_hazards.md R176, R180: a host that owns MAXLEN(W) bytes at DST, below the top of the address space, has no other byte of MEM changed by an
encode. -/
def Obligations.EncodeStaysInsideTheOwnedBytes : Prop :=
  ∀ i : Instr, i.isEncode = true → ∀ s : State, outputCapacity i.width s →
    ∃ t, exec i s = .next t ∧ ∀ a, a < s.dst.toNat ∨ s.dst.toNat + maxLen i.width ≤ a → t.mem.read a = s.mem.read a

/-- 20_memory.md R59: a pure or an encode command issued twice gives the same result twice. Only the record of accesses grows (log 4). -/
def Obligations.EncodeTwiceChangesNothingMore : Prop :=
  ∀ i : Instr, i.isPure = true ∨ i.isEncode = true → ∀ s : State, Config.legal s.aw s.lw → s.mem.wf →
    ∃ t tr, exec i s = .next t ∧ exec i t = .next { t with trace := tr }

/-! ## Decode commands -/

/-- 42_varint_unpack.md R112: when `unpack_W` succeeds, with which value and length, and the reads it made. -/
def Obligations.UnpackSucceedsExactlyWhen : Prop :=
  ∀ W : Nat, W = 32 ∨ W = 64 → ∀ (aw lw : Nat) (pos : BitVec aw) (rem : BitVec lw) (p : Port) (u : BitVec W) (n : Nat),
    ((unpack W pos rem p).1 = .ok u n ↔ windowHolds W p.mem pos rem.toNat u.toNat n) ∧
    (windowHolds W p.mem pos rem.toNat u.toNat n → 1 ≤ n ∧ n ≤ min rem.toNat (maxLen W) ∧
      (unpack W pos rem p).2 = { p with trace := p.trace ++ readsFrom pos n }) ∧
    ∀ v m : Nat, windowHolds W p.mem pos rem.toNat v m → v < 2 ^ W

/-- 42_varint_unpack.md R114: when `unpack_W` fails EXHAUSTED; every byte of the window has been read then. -/
def Obligations.UnpackExhaustedExactlyWhen : Prop :=
  ∀ W : Nat, W = 32 ∨ W = 64 → ∀ (aw lw : Nat) (pos : BitVec aw) (rem : BitVec lw) (p : Port),
    ((unpack W pos rem p).1 = .fail .exhausted ↔ windowExhausted W p.mem pos rem.toNat) ∧
    (windowExhausted W p.mem pos rem.toNat → (unpack W pos rem p).2 = { p with trace := p.trace ++ readsFrom pos rem.toNat }) ∧
    (rem.toNat = 0 → (unpack W pos rem p).1 = .fail .exhausted ∧ (unpack W pos rem p).2 = p)

/-- 42_varint_unpack.md R115: when `unpack_W` fails OVERLONG; exactly MAXLEN(W) bytes have been read then. -/
def Obligations.UnpackOverlongExactlyWhen : Prop :=
  ∀ W : Nat, W = 32 ∨ W = 64 → ∀ (aw lw : Nat) (pos : BitVec aw) (rem : BitVec lw) (p : Port),
    ((unpack W pos rem p).1 = .fail .overlong ↔ windowOverlong W p.mem pos rem.toNat) ∧
    (windowOverlong W p.mem pos rem.toNat → (unpack W pos rem p).2 = { p with trace := p.trace ++ readsFrom pos (maxLen W) }) ∧
    statusErr (statusFailure .overlong) = 2#2

/-- 42_varint_unpack.md R116: the outcome by the first index whose bit 7 is clear and by the length of the window; each row of the rule's table in turn. -/
def Obligations.UnpackOutcomeTable : Prop :=
  ∀ W : Nat, W = 32 ∨ W = 64 → ∀ (aw lw : Nat) (pos : BitVec aw) (rem : BitVec lw) (p : Port),
    (∀ t, t < maxLen W - 1 → t < rem.toNat → (∀ j < t, wireMore (windowByte p.mem pos j) = true) → wireMore (windowByte p.mem pos t) = false →
      ∃ u, (unpack W pos rem p).1 = .ok u (t + 1)) ∧
    (maxLen W ≤ rem.toNat → (∀ j < maxLen W - 1, wireMore (windowByte p.mem pos j) = true) →
      wireMore (windowByte p.mem pos (maxLen W - 1)) = false →
      (¬ excessPayload W (windowByte p.mem pos (maxLen W - 1)) → ∃ u, (unpack W pos rem p).1 = .ok u (maxLen W)) ∧
      (excessPayload W (windowByte p.mem pos (maxLen W - 1)) → (unpack W pos rem p).1 = .fail .overlong)) ∧
    ((∀ j < min rem.toNat (maxLen W), wireMore (windowByte p.mem pos j) = true) →
      (maxLen W ≤ rem.toNat → (unpack W pos rem p).1 = .fail .overlong) ∧
      (rem.toNat < maxLen W → (unpack W pos rem p).1 = .fail .exhausted))

/-- 42_varint_unpack.md R117: VUNPACK32, on success, on EXHAUSTED and on OVERLONG. On a failure nothing is said of VOUT. -/
def Obligations.Vunpack32Decodes : Prop :=
  decode 0b00001000#8 = .ok .vunpack32 ∧
  ∀ s : State,
    (∀ u n, windowHolds 32 s.mem s.pos s.rem.toNat u n → exec .vunpack32 s = .next (decodedFrom s (BitVec.ofNat 64 u) n)) ∧
    (windowExhausted 32 s.mem s.pos s.rem.toNat → ∃ v, exec .vunpack32 s = .next (failedFrom s v 0b010#3 s.rem.toNat)) ∧
    (windowOverlong 32 s.mem s.pos s.rem.toNat → ∃ v, exec .vunpack32 s = .next (failedFrom s v 0b100#3 5))

/-- 42_varint_unpack.md R118: VUNPACK64. -/
def Obligations.Vunpack64Decodes : Prop :=
  decode 0b00001001#8 = .ok .vunpack64 ∧
  ∀ s : State,
    (∀ u n, windowHolds 64 s.mem s.pos s.rem.toNat u n → exec .vunpack64 s = .next (decodedFrom s (BitVec.ofNat 64 u) n)) ∧
    (windowExhausted 64 s.mem s.pos s.rem.toNat → ∃ v, exec .vunpack64 s = .next (failedFrom s v 0b010#3 s.rem.toNat)) ∧
    (windowOverlong 64 s.mem s.pos s.rem.toNat → ∃ v, exec .vunpack64 s = .next (failedFrom s v 0b100#3 10))

/-- 44_composite.md R142: READZINT; the upper half of VOUT is 0. -/
def Obligations.ReadzintDecodes : Prop :=
  decode 0b00001100#8 = .ok .readzint ∧
  ∀ s : State,
    (∀ u n, windowHolds 32 s.mem s.pos s.rem.toNat u n →
      exec .readzint s = .next (decodedFrom s ((BitVec.ofInt 32 (unfoldCode u)).setWidth 64) n)) ∧
    (windowExhausted 32 s.mem s.pos s.rem.toNat → ∃ v, exec .readzint s = .next (failedFrom s v 0b010#3 s.rem.toNat)) ∧
    (windowOverlong 32 s.mem s.pos s.rem.toNat → ∃ v, exec .readzint s = .next (failedFrom s v 0b100#3 5))

/-- 44_composite.md R143: READZLONG. -/
def Obligations.ReadzlongDecodes : Prop :=
  decode 0b00001101#8 = .ok .readzlong ∧
  ∀ s : State,
    (∀ u n, windowHolds 64 s.mem s.pos s.rem.toNat u n →
      exec .readzlong s = .next (decodedFrom s (BitVec.ofInt 64 (unfoldCode u)) n)) ∧
    (windowExhausted 64 s.mem s.pos s.rem.toNat → ∃ v, exec .readzlong s = .next (failedFrom s v 0b010#3 s.rem.toNat)) ∧
    (windowOverlong 64 s.mem s.pos s.rem.toNat → ∃ v, exec .readzlong s = .next (failedFrom s v 0b100#3 10))

/-- 60_exceptions.md R153: the effects of a decode failure, for the four decode commands and the two kinds. Nothing is said of VOUT. -/
def Obligations.DecodeFailureEffects : Prop :=
  ∀ i : Instr, i.isDecode = true → ∀ (s : State) (k : FailKind), (unpack i.width s.pos s.rem (port s)).1 = .fail k →
    ∃ (v : BitVec 64) (tr : List Access), exec i s = .next
      { s with
        st := (match k with | .exhausted => 0b010#3 | .overlong => 0b100#3), rem := 0, cnt := 0, vout := v, trace := tr, draws := s.draws + 1 }

/-- 20_memory.md R57: a decode command reads `POS +_AW 0, 1, 2, ...` in that order, each once, at most `min(REM, MAXLEN(W))` of them, and makes no other
access; it leaves MEM alone. -/
def Obligations.DecodeReadsOnlyTheWindow : Prop :=
  ∀ i : Instr, i.isDecode = true → ∀ s : State, ∃ t k, exec i s = .next t ∧ k ≤ min s.rem.toNat (maxLen i.width) ∧
    t.trace = s.trace ++ readsFrom s.pos k ∧ t.mem = s.mem

/-- The bytes outside the window have no influence on a decode: two states that differ in them only go to two states that differ in them only, but for VOUT after a failure,
of which nothing is said (20_memory.md R57; 93_implementation_defined.md U1). -/
def Obligations.DecodeDependsOnlyOnTheWindow : Prop :=
  ∀ i : Instr, i.isDecode = true → ∀ (s : State) (m : Memory),
    (∀ k < min s.rem.toNat (maxLen i.width), windowByte m s.pos k = windowByte s.mem s.pos k) →
    ∃ t v, exec i s = .next t ∧ exec i { s with mem := m } = .next { t with mem := m, vout := v } ∧ (t.st = 0b001#3 → v = t.vout)

/-- 70_reset_and_hazards.md R185: how many byte accesses a command makes, and of which kind. -/
def Obligations.AccessCounts : Prop :=
  ∀ (i : Instr) (s : State), ∃ t tr, exec i s = .next t ∧ t.trace = s.trace ++ tr ∧
    (i.isPure = true → tr = []) ∧
    (i.isEncode = true → 1 ≤ tr.length ∧ tr.length ≤ maxLen i.width ∧ tr.length = t.cnt.toNat ∧ ∀ x ∈ tr, ∃ a v, x = .write a v) ∧
    (i.isDecode = true → tr.length ≤ min s.rem.toNat (maxLen i.width) ∧ ∀ x ∈ tr, ∃ a, x = .read a)

/-! ## The cursor -/

/-- 43_cursor_tracker.md R130: END = POS + REM modulo 2^AW stays on a successful decode, is POS after a failed one, and no other command changes it. -/
def Obligations.WindowEndOnlyMovesOnFailure : Prop :=
  ∀ (i : Instr) (s : State), ∃ t, exec i s = .next t ∧
    (t.st = 0b001#3 → (t.pos.toNat + t.rem.toNat) % 2 ^ t.aw = (s.pos.toNat + s.rem.toNat) % 2 ^ s.aw) ∧
    (t.st ≠ 0b001#3 → i.isDecode = true ∧ t.pos.toNat = s.pos.toNat ∧ (t.pos.toNat + t.rem.toNat) % 2 ^ t.aw = t.pos.toNat)

/-- 43_cursor_tracker.md R132: after a failed decode every decode fails EXHAUSTED with no read, and POS still holds the place of the failure. -/
def Obligations.DeadCursorFailsWithoutReading : Prop :=
  ∀ i j : Instr, i.isDecode = true → j.isDecode = true → ∀ s : State, ∃ t, exec i s = .next t ∧
    (t.st ≠ 0b001#3 → t.rem.toNat = 0 ∧ t.pos.toNat = s.pos.toNat ∧
      ∃ v, exec j t = .next { t with vout := v, cnt := 0, st := 0b010#3, draws := t.draws + 1 })

/-- 43_cursor_tracker.md R133: pure commands, encode commands and reserved words neither read nor write POS and REM. -/
def Obligations.OtherCommandsIgnoreTheCursor : Prop :=
  (∀ i : Instr, i.isPure = true ∨ i.isEncode = true → ∀ s : State, ∃ (vout : BitVec 64) (cnt : BitVec 4) (st : BitVec 3) (m : Memory) (tr : List Access),
    ∀ (p : BitVec s.aw) (r : BitVec s.lw), exec i { s with pos := p, rem := r } =
      .next { s with pos := p, rem := r, vout := vout, cnt := cnt, st := st, mem := m, trace := tr }) ∧
  ∀ (c : CommandWord) (s : State), (c.toNat < 2 ∨ 13 < c.toNat) → issueCommand c s = .next { s with st := 0b110#3 }

/-- 43_cursor_tracker.md R131: k encoded integers laid end to end are decoded by k commands, with no host action on the cursor between them; the remaining length falls by
their total length. -/
def Obligations.ChainedDecodeReturnsEveryValue : Prop :=
  ∀ (s : State) (vs : List (BitVec 32)) (bs : List Byte),
    bs = vs.flatMap (fun v => packedBytes (foldSigned v.toInt)) →
    (∀ k (h : k < bs.length), windowByte s.mem s.pos k = bs[k]) → bs.length ≤ s.rem.toNat →
    s.pending = vs.flatMap (fun _ => [.cmd 0b00001100#8, .rd 1]) →
    ∃ t, Host.Core.run core (2 * vs.length) s = .next t ∧ t.pending = [] ∧
      t.returned = s.returned ++ vs.map (fun v => .rd 1 v.toNat) ∧
      t.pos.toNat = (addr s.pos bs.length).toNat ∧ t.rem.toNat = s.rem.toNat - bs.length

/-! ## Whole-machine rules -/

/-- 10_state.md R34: no command reads ST, and none reads VOUT or CNT: the outcome and the results of an earlier command have no influence, except through POS and REM. Nothing
is said of VOUT after a failure. -/
def Obligations.NoCommandReadsEarlierResults : Prop :=
  ∀ (i : Instr) (s : State) (v : BitVec 64) (n : BitVec 4) (x : BitVec 3), ∃ t w, exec i s = .next t ∧
    exec i { s with vout := v, cnt := n, st := x } = .next
      { t with vout := if i.isEncode then v else w, cnt := if i.isPure then n else t.cnt } ∧
    (t.st = 0b001#3 → w = t.vout)

/-- 10_state.md R33: every command writes ST with its own outcome: success, EXHAUSTED or OVERLONG; only a decode can fail. -/
def Obligations.EveryCommandWritesItsOutcome : Prop :=
  ∀ (i : Instr) (s : State), ∃ t, exec i s = .next t ∧
    (t.st = 0b001#3 ∨ (i.isDecode = true ∧ (t.st = 0b010#3 ∨ t.st = 0b100#3)))

/-- 10_state.md R21: no command writes VIN, and a command of width 32 ignores the upper half of it. Nothing is said of VOUT after a failure. -/
def Obligations.NarrowCommandsIgnoreTheUpperHalf : Prop :=
  (∀ (i : Instr) (s : State), ∃ t, exec i s = .next t ∧ t.vin = s.vin) ∧
  ∀ i : Instr, i.width = 32 → ∀ (s : State) (x : BitVec 64), x.extractLsb' 0 32 = s.vin.extractLsb' 0 32 →
    ∃ t w, exec i s = .next t ∧ exec i { s with vin := x } = .next { t with vin := x, vout := w } ∧ (t.st = 0b001#3 → w = t.vout)

/-- 44_composite.md R144: the composites have the effects of their parts. -/
def Obligations.CompositesEqualTheirParts : Prop :=
  (∀ s : State, ∃ a b t, exec .zzenc32 s = .next a ∧ exec .vpack32 { a with vin := a.vout } = .next b ∧ exec .putzint s = .next t ∧
    t.mem = b.mem ∧ t.cnt = b.cnt ∧ t.st = b.st) ∧
  (∀ s : State, ∃ a b t, exec .zzenc64 s = .next a ∧ exec .vpack64 { a with vin := a.vout } = .next b ∧ exec .putzlong s = .next t ∧
    t.mem = b.mem ∧ t.cnt = b.cnt ∧ t.st = b.st) ∧
  (∀ s : State, ∃ a t, exec .vunpack32 s = .next a ∧ exec .readzint s = .next t ∧
    (a.st = 0b001#3 → ∃ b, exec .zzdec32 { a with vin := a.vout } = .next b ∧
      t.vout = b.vout ∧ t.pos.toNat = b.pos.toNat ∧ t.rem.toNat = b.rem.toNat ∧ t.cnt = b.cnt ∧ t.st = b.st) ∧
    (a.st ≠ 0b001#3 → t.pos.toNat = a.pos.toNat ∧ t.rem.toNat = a.rem.toNat ∧ t.cnt = a.cnt ∧ t.st = a.st)) ∧
  (∀ s : State, ∃ a t, exec .vunpack64 s = .next a ∧ exec .readzlong s = .next t ∧
    (a.st = 0b001#3 → ∃ b, exec .zzdec64 { a with vin := a.vout } = .next b ∧
      t.vout = b.vout ∧ t.pos.toNat = b.pos.toNat ∧ t.rem.toNat = b.rem.toNat ∧ t.cnt = b.cnt ∧ t.st = b.st) ∧
    (a.st ≠ 0b001#3 → t.pos.toNat = a.pos.toNat ∧ t.rem.toNat = a.rem.toNat ∧ t.cnt = a.cnt ∧ t.st = a.st))

/-- 42_varint_unpack.md R119: what was packed is unpacked, at either width, as long as the bytes written have not changed since; a truncated window is EXHAUSTED; a
value of 64 bits that does not fit 32 is OVERLONG there. -/
def Obligations.PackedBytesUnpack : Prop :=
  ∀ (aw lw : Nat) (d : BitVec aw) (rem : BitVec lw) (p q : Port), 4 ≤ aw → p.mem.wf →
    (∀ u : BitVec 32, (∀ i < (pack u d p).1, windowByte q.mem d i = windowByte (pack u d p).2.mem d i) →
      ((pack u d p).1 ≤ rem.toNat →
        (unpack 32 d rem q).1 = .ok u (pack u d p).1 ∧ (unpack 64 d rem q).1 = .ok (u.setWidth 64) (pack u d p).1) ∧
      (rem.toNat < (pack u d p).1 → (unpack 32 d rem q).1 = .fail .exhausted)) ∧
    (∀ u : BitVec 64, (∀ i < (pack u d p).1, windowByte q.mem d i = windowByte (pack u d p).2.mem d i) →
      ((pack u d p).1 ≤ rem.toNat →
        (unpack 64 d rem q).1 = .ok u (pack u d p).1 ∧
        (u.toNat < 2 ^ 32 → (unpack 32 d rem q).1 = .ok (u.setWidth 32) (pack u d p).1) ∧
        (2 ^ 32 ≤ u.toNat → (unpack 32 d rem q).1 = .fail .overlong)) ∧
      (rem.toNat < (pack u d p).1 → (unpack 64 d rem q).1 = .fail .exhausted))

/-- 44_composite.md R145: the round trip, at both widths, as runs of host actions from any state that meets the invariant: encode, load the cursor, decode. With a
window too short the decode fails EXHAUSTED. -/
def Obligations.EncodeThenDecodeReturnsTheValue : Prop :=
  (∀ (s : State) (x : BitVec 64) (d : BitVec s.aw) (B : BitVec s.lw), Inv s →
    s.pending = [.wr 0 x.toNat, .wr 2 d.toNat, .cmd 0b00001010#8, .wr 4 d.toNat, .wr 5 B.toNat, .cmd 0b00001100#8] →
    ∃ e t, Host.Core.run core 3 s = .next e ∧ Host.Core.run core 6 s = .next t ∧
      (e.cnt.toNat ≤ B.toNat → t.st = 0b001#3 ∧ t.vout = (x.extractLsb' 0 32).setWidth 64 ∧ t.cnt = e.cnt ∧
        t.pos.toNat = (addr d e.cnt.toNat).toNat ∧ t.rem.toNat = B.toNat - e.cnt.toNat) ∧
      (B.toNat < e.cnt.toNat → t.st = 0b010#3 ∧ t.pos.toNat = d.toNat ∧ t.rem.toNat = 0)) ∧
  (∀ (s : State) (x : BitVec 64) (d : BitVec s.aw) (B : BitVec s.lw), Inv s →
    s.pending = [.wr 0 x.toNat, .wr 2 d.toNat, .cmd 0b00001011#8, .wr 4 d.toNat, .wr 5 B.toNat, .cmd 0b00001101#8] →
    ∃ e t, Host.Core.run core 3 s = .next e ∧ Host.Core.run core 6 s = .next t ∧
      (e.cnt.toNat ≤ B.toNat → t.st = 0b001#3 ∧ t.vout = x ∧ t.cnt = e.cnt ∧
        t.pos.toNat = (addr d e.cnt.toNat).toNat ∧ t.rem.toNat = B.toNat - e.cnt.toNat) ∧
      (B.toNat < e.cnt.toNat → t.st = 0b010#3 ∧ t.pos.toNat = d.toNat ∧ t.rem.toNat = 0))

/-- 44_composite.md R147: mixing the widths of encode and decode. -/
def Obligations.CrossWidthDecode : Prop :=
  ∀ s : State, Config.legal s.aw s.lw → s.mem.wf →
    (∃ e, exec .putzint s = .next e ∧ ∀ B : BitVec e.lw, e.cnt.toNat ≤ B.toNat →
      ∃ t, exec .readzlong { e with pos := e.dst, rem := B } = .next t ∧ t.st = 0b001#3 ∧ t.vout = (s.vin.extractLsb' 0 32).signExtend 64) ∧
    (∃ e, exec .putzlong s = .next e ∧ ∀ B : BitVec e.lw, e.cnt.toNat ≤ B.toNat →
      ∃ t, exec .readzint { e with pos := e.dst, rem := B } = .next t ∧
        (-2 ^ 31 ≤ s.vin.toInt ∧ s.vin.toInt < 2 ^ 31 → t.st = 0b001#3 ∧ t.vout.extractLsb' 0 32 = s.vin.extractLsb' 0 32) ∧
        (¬ (-2 ^ 31 ≤ s.vin.toInt ∧ s.vin.toInt < 2 ^ 31) → t.st = 0b100#3))

/-- 44_composite.md R146: re-encoding what was decoded is never longer; it has the same length exactly when the input was minimal (one byte, or a last group that is not zero), and
then it is the same bytes. -/
def Obligations.ReencodingReproducesMinimalInput : Prop :=
  ∀ (s : State) (u n : Nat), windowHolds 64 s.mem s.pos s.rem.toNat u n →
    ∃ t e, exec .vunpack64 s = .next t ∧ exec .vpack64 { t with vin := t.vout } = .next e ∧ t.cnt.toNat = n ∧ e.cnt.toNat ≤ n ∧
      (e.cnt.toNat = n ↔ n = 1 ∨ wirePayload (windowByte s.mem s.pos (n - 1)) ≠ 0#7) ∧
      (e.cnt.toNat = n → ∀ i < n, e.trace[s.trace.length + n + i]? =
        some (.write (addr s.dst i).toNat (windowByte s.mem s.pos i)))

/-- 30_encoding.md R79: a call of `PutZInt(value, outBuffer)` returns the number of bytes written. -/
def Obligations.PutZIntCallReturnsTheByteCount : Prop :=
  ∀ (s : State) (x : BitVec 64) (d : BitVec s.aw), s.pending = putCall .putzint x.toNat d.toNat →
    ∃ t, Host.Core.run core 4 s = .next t ∧
      t.returned = s.returned ++ [.rd 3 (wireLength (foldSigned (x.extractLsb' 0 32).toInt))]
end

