-- ==== Sys2Proof/Laws/Memory.lean ====
section
/-! SUPPORT. The laws of the buffer memory: a read after a write, and that every write keeps the canonical form. -/

namespace Sys2Proof.Machine

theorem Memory.read_cons (c : Host.Cell) (m : Memory) (a : Nat) :
    Memory.read (c :: m) a = if c.1 = a then c.2 else Memory.read m a := rfl

/-- An address below every listed one reads as unlisted. -/
theorem Memory.read_below {m : Memory} {a : Nat} (h : ∀ c ∈ m, a < c.1) : Memory.read m a = Memory.unlisted := by
  induction m with
  | nil => rfl
  | cons c m ih =>
    have hc := h c (by simp)
    rw [Memory.read_cons, if_neg (by omega)]
    exact ih fun d hd => h d (by simp [hd])

/-- A cell put in front of a memory above it is read at its address. -/
theorem Memory.read_cons_same {m : Memory} {a : Nat} (v : Byte) (h : ∀ c ∈ m, a < c.1) : (Memory.cons a v m).read a = v := by
  unfold Memory.cons
  split
  · next hv => rw [Memory.read_below h, hv]
  · simp [Memory.read_cons]

theorem Memory.read_cons_other (m : Memory) {a b : Nat} (v : Byte) (h : b ≠ a) : (Memory.cons a v m).read b = m.read b := by
  unfold Memory.cons
  split
  · rfl
  · simp [Memory.read_cons, Ne.symm h]

/-- A read after a write to the same address gives the byte written (20_memory.md R53). -/
theorem Memory.read_write_same {m : Memory} (hm : m.wf) (a : Nat) (v : Byte) : (m.write a v).read a = v := by
  induction m with
  | nil => exact Memory.read_cons_same v (by simp)
  | cons c m ih =>
    obtain ⟨hp, hu⟩ := hm
    rw [List.pairwise_cons] at hp
    unfold Memory.write
    split
    · next h =>
      refine Memory.read_cons_same v fun d hd => ?_
      rcases List.mem_cons.1 hd with rfl | hd
      · exact h
      · exact h.trans (hp.1 d hd)
    · split
      · next h => exact Memory.read_cons_same v fun d hd => h ▸ hp.1 d hd
      · next h =>
        rw [Memory.read_cons, if_neg (Ne.symm h)]
        exact ih ⟨hp.2, fun d hd => hu d (by simp [hd])⟩

/-- A write changes no other byte (20_memory.md R53). -/
theorem Memory.read_write_other (m : Memory) {a b : Nat} (v : Byte) (h : b ≠ a) : (m.write a v).read b = m.read b := by
  induction m with
  | nil => exact Memory.read_cons_other [] v h
  | cons c m ih =>
    unfold Memory.write
    split
    · exact Memory.read_cons_other _ v h
    · split
      · next _ hc => rw [Memory.read_cons_other _ v h, Memory.read_cons, if_neg (by omega)]
      · rw [Memory.read_cons, Memory.read_cons, ih]

theorem Memory.mem_cons {m : Memory} {a : Nat} {v : Byte} {d : Host.Cell} (h : d ∈ Memory.cons a v m) : d.1 = a ∨ d ∈ m := by
  unfold Memory.cons at h
  split at h
  · exact .inr h
  · rcases List.mem_cons.1 h with rfl | h
    · exact .inl rfl
    · exact .inr h

/-- A write lists no address but its own anew. -/
theorem Memory.mem_write {m : Memory} {a : Nat} {v : Byte} {d : Host.Cell} (h : d ∈ m.write a v) : d.1 = a ∨ d ∈ m := by
  induction m with
  | nil => exact Memory.mem_cons h
  | cons c m ih =>
    unfold Memory.write at h
    split at h
    · exact Memory.mem_cons h
    · split at h
      · rcases Memory.mem_cons h with h | h
        · exact .inl h
        · exact .inr (by simp [h])
      · rcases List.mem_cons.1 h with rfl | h
        · exact .inr (by simp)
        · rcases ih h with h | h
          · exact .inl h
          · exact .inr (by simp [h])

theorem Memory.wf_cons {m : Memory} {a : Nat} (v : Byte) (hm : m.wf) (h : ∀ c ∈ m, a < c.1) : (Memory.cons a v m).wf := by
  unfold Memory.cons
  split
  · exact hm
  · next hv =>
    refine ⟨List.pairwise_cons.2 ⟨h, hm.1⟩, fun d hd => ?_⟩
    rcases List.mem_cons.1 hd with rfl | hd
    · exact hv
    · exact hm.2 d hd

/-- Every write keeps the canonical form. -/
theorem Memory.wf_write {m : Memory} (hm : m.wf) (a : Nat) (v : Byte) : (m.write a v).wf := by
  induction m with
  | nil => exact Memory.wf_cons v hm (by simp)
  | cons c m ih =>
    obtain ⟨hp, hu⟩ := hm
    have hp' := List.pairwise_cons.1 hp
    have hu' : ∀ d ∈ m, d.2 ≠ Memory.unlisted := fun d hd => hu d (by simp [hd])
    unfold Memory.write
    split
    · next h =>
      refine Memory.wf_cons v ⟨hp, hu⟩ fun d hd => ?_
      rcases List.mem_cons.1 hd with rfl | hd
      · exact h
      · exact h.trans (hp'.1 d hd)
    · split
      · next h => exact Memory.wf_cons v ⟨hp'.2, hu'⟩ fun d hd => h ▸ hp'.1 d hd
      · have hi := ih ⟨hp'.2, hu'⟩
        refine ⟨List.pairwise_cons.2 ⟨fun d hd => ?_, hi.1⟩, fun d hd => ?_⟩
        · rcases Memory.mem_write hd with h | h
          · omega
          · exact hp'.1 d h
        · rcases List.mem_cons.1 hd with rfl | hd
          · exact hu _ (by simp)
          · exact hi.2 d hd

/-- Every write to an address of the space keeps the listed addresses in the space. -/
theorem Memory.within_write {aw : Nat} {m : Memory} (hm : m.within aw) {a : Nat} (ha : a < 2 ^ aw) (v : Byte) :
    (m.write a v).within aw := by
  intro d hd
  rcases Memory.mem_write hd with h | h
  · omega
  · exact hm d h

end Sys2Proof.Machine
end

