-- ==== Sys2Proof/Laws/Wire.lean ====
section
/-! SUPPORT. The wire format: the fields of an encoded byte, and the length and the bytes of a packed value by recursion on the value
(spec/30_encoding.md R74, R75, R78). -/

namespace Sys2Proof.Machine

@[simp] theorem wireMore_wireByte (more : Bool) (p : BitVec 7) : wireMore (wireByte more p) = more := by
  unfold wireMore wireByte
  rw [BitVec.getLsbD_append]
  cases more <;> simp

@[simp] theorem wirePayload_wireByte (more : Bool) (p : BitVec 7) : wirePayload (wireByte more p) = p := by
  unfold wirePayload wireByte
  apply BitVec.eq_of_getLsbD_eq
  intro i hi
  rw [BitVec.getLsbD_extractLsb', BitVec.getLsbD_append]
  simp [hi]

/-- A payload as a number: the byte less its continuation bit. -/
theorem wirePayload_toNat (b : Byte) : (wirePayload b).toNat = b.toNat % 128 := by
  simp [wirePayload, BitVec.extractLsb'_toNat]

theorem wirePayload_lt (b : Byte) : (wirePayload b).toNat < 128 := (wirePayload b).isLt

theorem wireLength_small {u : Nat} (h : u < 128) : wireLength u = 1 := by
  unfold wireLength bitLength
  split
  · rfl
  · next h0 =>
    have : Nat.log2 u < 7 := (Nat.log2_lt h0).2 h
    omega

theorem wireLength_step {u : Nat} (h : 128 ≤ u) : wireLength u = wireLength (u / 128) + 1 := by
  have h0 : u ≠ 0 := by omega
  have h1 : u / 128 ≠ 0 := by omega
  have hl : Nat.log2 u = Nat.log2 (u / 128) + 7 := by
    rw [Nat.log2_eq_iff h0]
    have ha := Nat.log2_self_le h1
    have hb := Nat.lt_log2_self (n := u / 128)
    rw [pow_add, pow_add, pow_add]
    rw [pow_succ] at hb
    omega
  unfold wireLength bitLength
  rw [if_neg h0, if_neg h1, if_neg h0, if_neg h1, hl]
  omega

theorem wireLength_pos (u : Nat) : 1 ≤ wireLength u := by
  rcases Nat.lt_or_ge u 128 with h | h
  · rw [wireLength_small h]
  · rw [wireLength_step h]; omega

/-- "`len(u) = k` exactly when `2^(7(k-1)) <= u < 2^(7k)`" (30_encoding.md R78), as a bound. -/
theorem wireLength_le_iff {u k : Nat} (hk : 1 ≤ k) : wireLength u ≤ k ↔ u < 2 ^ (7 * k) := by
  induction k generalizing u with
  | zero => omega
  | succ k ih =>
    rw [Nat.mul_succ, pow_add]
    rcases Nat.lt_or_ge u 128 with h | h
    · rw [wireLength_small h]
      have := Nat.one_le_two_pow (n := 7 * k)
      omega
    · rw [wireLength_step h]
      rcases Nat.eq_zero_or_pos k with rfl | hk'
      · have := wireLength_pos (u / 128)
        omega
      · rw [Nat.add_le_add_iff_right, ih hk']
        omega

theorem packedByte_zero_small {u : Nat} (h : u < 128) : packedByte u 0 = wireByte false (BitVec.ofNat 7 u) := by
  simp [packedByte, wireLength_small h]

theorem packedByte_zero_big {u : Nat} (h : 128 ≤ u) : packedByte u 0 = wireByte true (BitVec.ofNat 7 u) := by
  have := wireLength_pos (u / 128)
  simp only [packedByte, wireLength_step h, Nat.mul_zero, pow_zero, Nat.div_one]
  rw [decide_eq_true (by omega)]

theorem packedByte_succ {u : Nat} (h : 128 ≤ u) (i : Nat) : packedByte u (i + 1) = packedByte (u / 128) i := by
  have hd : u / 2 ^ (7 * (i + 1)) = u / 128 / 2 ^ (7 * i) := by
    rw [Nat.mul_succ, Nat.add_comm, pow_add, Nat.div_div_eq_div_mul]
    rfl
  simp only [packedByte, wireLength_step h, Nat.add_lt_add_iff_right, hd]

theorem packedBytes_small {u : Nat} (h : u < 128) : packedBytes u = [wireByte false (BitVec.ofNat 7 u)] := by
  rw [packedBytes, wireLength_small h]
  exact congrArg (fun b => [b]) (packedByte_zero_small h)

theorem packedBytes_big {u : Nat} (h : 128 ≤ u) :
    packedBytes u = wireByte true (BitVec.ofNat 7 u) :: packedBytes (u / 128) := by
  rw [packedBytes, wireLength_step h, List.range_succ_eq_map, List.map_cons, packedByte_zero_big h, List.map_map]
  exact congrArg _ (List.map_congr_left fun i _ => packedByte_succ h i)

@[simp] theorem packedBytes_length (u : Nat) : (packedBytes u).length = wireLength u := by simp [packedBytes]

/-- The bytes of a packed value carry that value (30_encoding.md R75). -/
theorem wireValue_packedBytes (u : Nat) : wireValue (packedBytes u) = u := by
  induction u using Nat.strong_induction_on with
  | _ u ih =>
    rcases Nat.lt_or_ge u 128 with h | h
    · rw [packedBytes_small h]
      simp only [wireValue, wirePayload_wireByte, BitVec.toNat_ofNat]
      omega
    · rw [packedBytes_big h, wireValue, wirePayload_wireByte, ih (u / 128) (by omega), BitVec.toNat_ofNat]
      omega

/-- A byte put after a sequence carries the group above it. -/
theorem wireValue_append (bs : List Byte) (b : Byte) :
    wireValue (bs ++ [b]) = wireValue bs + 2 ^ (7 * bs.length) * (wirePayload b).toNat := by
  induction bs with
  | nil => simp [wireValue]
  | cons c bs ih =>
    rw [List.cons_append, wireValue, ih, wireValue, List.length_cons, Nat.mul_succ, pow_add]
    ring

theorem wireValue_lt (bs : List Byte) : wireValue bs < 2 ^ (7 * bs.length) := by
  induction bs with
  | nil => simp [wireValue]
  | cons b bs ih =>
    have := wirePayload_lt b
    rw [wireValue, List.length_cons, Nat.mul_succ, pow_add]
    omega

end Sys2Proof.Machine
end

