-- ==== Sys2Proof/Laws/Pack.lean ====
section
/-! SUPPORT. The packer: everything `pack_W` does, said once (spec/41_varint_pack.md R101 to R103). -/

namespace Sys2Proof.Machine

open Sys2Proof.Claims

/-- Bytes written one after the other at `d +_AW i`, `d +_AW (i+1)`, ... -/
def storeBytes {aw : Nat} (d : BitVec aw) : Nat → List Byte → Port → Port
  | _, [], p => p
  | i, b :: bs, p => storeBytes d (i + 1) bs (memWrite p (addr d i) b)

/-- The loop of the packer writes the bytes of what remains of the value (41_varint_pack.md R101, closed form). -/
theorem packLoop_eq {W aw : Nat} (fuel : Nat) (u : BitVec W) (d : BitVec aw) (i : Nat) (p : Port) (hf : 1 ≤ fuel)
    (hu : u.toNat < 2 ^ (7 * fuel)) :
    packLoop fuel u d i p = (i + wireLength u.toNat, storeBytes d i (packedBytes u.toNat) p) := by
  induction fuel generalizing u i p with
  | zero => omega
  | succ fuel ih =>
    have hs : (u >>> 7).toNat = u.toNat / 128 := by simp [BitVec.toNat_ushiftRight, Nat.shiftRight_eq_div_pow]
    have hp : u.setWidth 7 = BitVec.ofNat 7 u.toNat := by
      apply BitVec.eq_of_toNat_eq; simp
    have hm : (u >>> 7 ≠ 0#W) ↔ 128 ≤ u.toNat := by
      rw [ne_eq, ← BitVec.toNat_inj, hs, BitVec.toNat_zero]; omega
    unfold packLoop
    simp only [decide_eq_true_eq, hm, hp]
    split
    · next h =>
      rw [Nat.mul_succ, pow_add] at hu
      rw [ih (u >>> 7) (i + 1) _ (by
          rcases Nat.eq_zero_or_pos fuel with rfl | h0
          · omega
          · exact h0) (by omega), hs, decide_eq_true h, packedBytes_big h, wireLength_step h, storeBytes]
      congr 1
      omega
    · next h =>
      have h' : u.toNat < 128 := by omega
      rw [wireLength_small h', packedBytes_small h', decide_eq_false h, storeBytes, storeBytes]

/-- Everything `pack_W` does (41_varint_pack.md R101, R102). -/
theorem pack_eq {W aw : Nat} (hW : 7 ≤ W) (u : BitVec W) (d : BitVec aw) (p : Port) :
    pack u d p = (wireLength u.toNat, storeBytes d 0 (packedBytes u.toNat) p) := by
  have h7 : W ≤ 7 * maxLen W := by unfold maxLen; omega
  rw [pack, packLoop_eq _ _ _ _ _ (by unfold maxLen; omega) (u.isLt.trans_le (Nat.pow_le_pow_right (by omega) h7)), Nat.zero_add]

/-- At most MAXLEN(W) bytes (41_varint_pack.md R103, property 1). -/
theorem wireLength_le_maxLen {W : Nat} (hW : 7 ≤ W) (u : BitVec W) : wireLength u.toNat ≤ maxLen W := by
  have h7 : W ≤ 7 * maxLen W := by unfold maxLen; omega
  exact (wireLength_le_iff (by unfold maxLen; omega)).2 (u.isLt.trans_le (Nat.pow_le_pow_right (by omega) h7))

theorem storeBytes_wf {aw : Nat} (d : BitVec aw) (bs : List Byte) (i : Nat) (p : Port) (h : p.mem.wf) :
    (storeBytes d i bs p).mem.wf := by
  induction bs generalizing i p with
  | nil => exact h
  | cons b bs ih => exact ih _ _ (Memory.wf_write h _ _)

theorem storeBytes_within {aw : Nat} (d : BitVec aw) (bs : List Byte) (i : Nat) (p : Port) (h : p.mem.within aw) :
    (storeBytes d i bs p).mem.within aw := by
  induction bs generalizing i p with
  | nil => exact h
  | cons b bs ih => exact ih _ _ (Memory.within_write h (addr d i).isLt _)

/-- The accesses are the writes, in ascending order (20_memory.md R61). -/
theorem storeBytes_trace {aw : Nat} (d : BitVec aw) (bs : List Byte) (i : Nat) (p : Port) :
    (storeBytes d i bs p).trace = p.trace ++ bs.mapIdx fun k b => .write (addr d (i + k)).toNat b := by
  induction bs generalizing i p with
  | nil => simp [storeBytes]
  | cons b bs ih =>
    rw [storeBytes, ih, List.mapIdx_cons]
    simp only [memWrite, List.append_assoc, List.singleton_append, Nat.add_zero]
    congr 2
    simp only [Nat.add_assoc, Nat.add_comm 1]

/-- Bytes outside the range written read as before (41_varint_pack.md R102). -/
theorem storeBytes_read_other {aw : Nat} (d : BitVec aw) (bs : List Byte) (i : Nat) (p : Port) (a : Nat)
    (h : ∀ k < bs.length, a ≠ (addr d (i + k)).toNat) : (storeBytes d i bs p).mem.read a = p.mem.read a := by
  induction bs generalizing i p with
  | nil => rfl
  | cons b bs ih =>
    rw [storeBytes, ih _ _ fun k hk => ?_]
    · exact Memory.read_write_other _ _ (by simpa using h 0 (by simp))
    · have := h (k + 1) (by simpa using hk)
      rwa [Nat.add_assoc, Nat.add_comm 1]

/-- Two indices less than 2^AW apart are two addresses. -/
theorem addr_toNat_ne {aw : Nat} (d : BitVec aw) {i j : Nat} (hij : i ≠ j) (hi : i < 2 ^ aw) (hj : j < 2 ^ aw) :
    (addr d i).toNat ≠ (addr d j).toNat := by
  intro h
  have h2 : BitVec.ofNat aw i = BitVec.ofNat aw j := by
    have := BitVec.eq_of_toNat_eq h
    unfold addr at this
    simpa using this
  have h3 := congrArg BitVec.toNat h2
  rw [BitVec.toNat_ofNat, BitVec.toNat_ofNat, Nat.mod_eq_of_lt hi, Nat.mod_eq_of_lt hj] at h3
  exact hij h3

/-- The bytes written are read back at their addresses (20_memory.md R53). -/
theorem storeBytes_read_same {aw : Nat} (d : BitVec aw) (bs : List Byte) (i : Nat) (p : Port) (hm : p.mem.wf)
    (hn : i + bs.length ≤ 2 ^ aw) (k : Nat) (hk : k < bs.length) :
    (storeBytes d i bs p).mem.read (addr d (i + k)).toNat = bs[k] := by
  induction bs generalizing i p k with
  | nil => simp at hk
  | cons b bs ih =>
    rw [List.length_cons] at hn hk
    rw [storeBytes]
    rcases k with _ | k
    · rw [storeBytes_read_other _ _ _ _ _ fun j hj => addr_toNat_ne d (by omega) (by omega) (by omega)]
      exact Memory.read_write_same hm _ _
    · have := ih (i + 1) (memWrite p (addr d i) b) (Memory.wf_write hm _ _) (by omega) k (by omega)
      rw [Nat.add_assoc, Nat.add_comm 1] at this
      simpa using this

/-- An encode command as one update of the state. -/
theorem packCommand_eq {W : Nat} (hW : 7 ≤ W) (u : BitVec W) (s : State) :
    packCommand u s =
      { s with
        mem := (storeBytes s.dst 0 (packedBytes u.toNat) (port s)).mem
        trace := s.trace ++ writesOf s.dst u.toNat
        cnt := BitVec.ofNat 4 (wireLength u.toNat)
        st := 0b001#3 } := by
  have ht : (storeBytes s.dst 0 (packedBytes u.toNat) (port s)).trace = s.trace ++ writesOf s.dst u.toNat := by
    rw [storeBytes_trace]
    congr 1
    apply List.ext_getElem <;> simp [writesOf, packedBytes]
  simp only [packCommand, pack_eq hW, succeed, setCnt, setPort, ht]
  rfl

/-- Everything an encode command does, in the terms of the claims: for a memory in canonical form and AW at least 4. -/
theorem packCommand_spec {W : Nat} (hW : 7 ≤ W) (hM : maxLen W ≤ 16) (u : BitVec W) (s : State) (ha : 4 ≤ s.aw) (hm : s.mem.wf) :
    encodedInto u.toNat s (packCommand u s) := by
  have hl := wireLength_le_maxLen hW u
  have h16 : 16 ≤ 2 ^ s.aw := Nat.pow_le_pow_right (n := 2) (by omega) ha
  refine ⟨_, packCommand_eq hW u s, fun i hi => ?_, fun a h => ?_⟩
  · have := storeBytes_read_same s.dst (packedBytes u.toNat) 0 (port s) hm (by simp; omega) i (by simpa using hi)
    rw [Nat.zero_add] at this
    rw [this]
    simp [packedBytes]
  · exact storeBytes_read_other _ _ _ _ _ fun k hk => by
      rw [Nat.zero_add]; exact h k (by simpa using hk)

end Sys2Proof.Machine
end

