-- ==== Sys2Proof/Laws/State.lean ====
section
/-! SUPPORT. What each update of the state does to each field, one lemma a field. -/

namespace Sys2Proof.Machine

/-! setVout -/

@[simp] theorem setVout_aw (v : Value) (s : State) : (setVout v s).aw = s.aw := rfl
@[simp] theorem setVout_lw (v : Value) (s : State) : (setVout v s).lw = s.lw := rfl
@[simp] theorem setVout_vin (v : Value) (s : State) : (setVout v s).vin = s.vin := rfl
@[simp] theorem setVout_vout (v : Value) (s : State) : (setVout v s).vout = v := rfl
@[simp] theorem setVout_dst (v : Value) (s : State) : (setVout v s).dst = s.dst := rfl
@[simp] theorem setVout_cnt (v : Value) (s : State) : (setVout v s).cnt = s.cnt := rfl
@[simp] theorem setVout_pos (v : Value) (s : State) : (setVout v s).pos = s.pos := rfl
@[simp] theorem setVout_rem (v : Value) (s : State) : (setVout v s).rem = s.rem := rfl
@[simp] theorem setVout_st (v : Value) (s : State) : (setVout v s).st = s.st := rfl
@[simp] theorem setVout_mem (v : Value) (s : State) : (setVout v s).mem = s.mem := rfl
@[simp] theorem setVout_pending (v : Value) (s : State) : (setVout v s).pending = s.pending := rfl
@[simp] theorem setVout_returned (v : Value) (s : State) : (setVout v s).returned = s.returned := rfl
@[simp] theorem setVout_trace (v : Value) (s : State) : (setVout v s).trace = s.trace := rfl
@[simp] theorem setVout_draws (v : Value) (s : State) : (setVout v s).draws = s.draws := rfl

/-! setCnt -/

@[simp] theorem setCnt_aw (n : Nat) (s : State) : (setCnt n s).aw = s.aw := rfl
@[simp] theorem setCnt_lw (n : Nat) (s : State) : (setCnt n s).lw = s.lw := rfl
@[simp] theorem setCnt_vin (n : Nat) (s : State) : (setCnt n s).vin = s.vin := rfl
@[simp] theorem setCnt_vout (n : Nat) (s : State) : (setCnt n s).vout = s.vout := rfl
@[simp] theorem setCnt_dst (n : Nat) (s : State) : (setCnt n s).dst = s.dst := rfl
@[simp] theorem setCnt_cnt (n : Nat) (s : State) : (setCnt n s).cnt = BitVec.ofNat 4 n := rfl
@[simp] theorem setCnt_pos (n : Nat) (s : State) : (setCnt n s).pos = s.pos := rfl
@[simp] theorem setCnt_rem (n : Nat) (s : State) : (setCnt n s).rem = s.rem := rfl
@[simp] theorem setCnt_st (n : Nat) (s : State) : (setCnt n s).st = s.st := rfl
@[simp] theorem setCnt_mem (n : Nat) (s : State) : (setCnt n s).mem = s.mem := rfl
@[simp] theorem setCnt_pending (n : Nat) (s : State) : (setCnt n s).pending = s.pending := rfl
@[simp] theorem setCnt_returned (n : Nat) (s : State) : (setCnt n s).returned = s.returned := rfl
@[simp] theorem setCnt_trace (n : Nat) (s : State) : (setCnt n s).trace = s.trace := rfl
@[simp] theorem setCnt_draws (n : Nat) (s : State) : (setCnt n s).draws = s.draws := rfl

/-! setPort -/

@[simp] theorem setPort_aw (p : Port) (s : State) : (setPort p s).aw = s.aw := rfl
@[simp] theorem setPort_lw (p : Port) (s : State) : (setPort p s).lw = s.lw := rfl
@[simp] theorem setPort_vin (p : Port) (s : State) : (setPort p s).vin = s.vin := rfl
@[simp] theorem setPort_vout (p : Port) (s : State) : (setPort p s).vout = s.vout := rfl
@[simp] theorem setPort_dst (p : Port) (s : State) : (setPort p s).dst = s.dst := rfl
@[simp] theorem setPort_cnt (p : Port) (s : State) : (setPort p s).cnt = s.cnt := rfl
@[simp] theorem setPort_pos (p : Port) (s : State) : (setPort p s).pos = s.pos := rfl
@[simp] theorem setPort_rem (p : Port) (s : State) : (setPort p s).rem = s.rem := rfl
@[simp] theorem setPort_st (p : Port) (s : State) : (setPort p s).st = s.st := rfl
@[simp] theorem setPort_mem (p : Port) (s : State) : (setPort p s).mem = p.mem := rfl
@[simp] theorem setPort_pending (p : Port) (s : State) : (setPort p s).pending = s.pending := rfl
@[simp] theorem setPort_returned (p : Port) (s : State) : (setPort p s).returned = s.returned := rfl
@[simp] theorem setPort_trace (p : Port) (s : State) : (setPort p s).trace = p.trace := rfl
@[simp] theorem setPort_draws (p : Port) (s : State) : (setPort p s).draws = s.draws := rfl

/-! succeed -/

@[simp] theorem succeed_aw (s : State) : (succeed s).aw = s.aw := rfl
@[simp] theorem succeed_lw (s : State) : (succeed s).lw = s.lw := rfl
@[simp] theorem succeed_vin (s : State) : (succeed s).vin = s.vin := rfl
@[simp] theorem succeed_vout (s : State) : (succeed s).vout = s.vout := rfl
@[simp] theorem succeed_dst (s : State) : (succeed s).dst = s.dst := rfl
@[simp] theorem succeed_cnt (s : State) : (succeed s).cnt = s.cnt := rfl
@[simp] theorem succeed_pos (s : State) : (succeed s).pos = s.pos := rfl
@[simp] theorem succeed_rem (s : State) : (succeed s).rem = s.rem := rfl
@[simp] theorem succeed_st (s : State) : (succeed s).st = 0b001#3 := rfl
@[simp] theorem succeed_mem (s : State) : (succeed s).mem = s.mem := rfl
@[simp] theorem succeed_pending (s : State) : (succeed s).pending = s.pending := rfl
@[simp] theorem succeed_returned (s : State) : (succeed s).returned = s.returned := rfl
@[simp] theorem succeed_trace (s : State) : (succeed s).trace = s.trace := rfl
@[simp] theorem succeed_draws (s : State) : (succeed s).draws = s.draws := rfl

/-! drawVout -/

@[simp] theorem drawVout_aw (s : State) : (drawVout s).aw = s.aw := rfl
@[simp] theorem drawVout_lw (s : State) : (drawVout s).lw = s.lw := rfl
@[simp] theorem drawVout_vin (s : State) : (drawVout s).vin = s.vin := rfl
@[simp] theorem drawVout_vout (s : State) : (drawVout s).vout = Config.unspecified64 s.draws := rfl
@[simp] theorem drawVout_dst (s : State) : (drawVout s).dst = s.dst := rfl
@[simp] theorem drawVout_cnt (s : State) : (drawVout s).cnt = s.cnt := rfl
@[simp] theorem drawVout_pos (s : State) : (drawVout s).pos = s.pos := rfl
@[simp] theorem drawVout_rem (s : State) : (drawVout s).rem = s.rem := rfl
@[simp] theorem drawVout_st (s : State) : (drawVout s).st = s.st := rfl
@[simp] theorem drawVout_mem (s : State) : (drawVout s).mem = s.mem := rfl
@[simp] theorem drawVout_pending (s : State) : (drawVout s).pending = s.pending := rfl
@[simp] theorem drawVout_returned (s : State) : (drawVout s).returned = s.returned := rfl
@[simp] theorem drawVout_trace (s : State) : (drawVout s).trace = s.trace := rfl
@[simp] theorem drawVout_draws (s : State) : (drawVout s).draws = s.draws + 1 := rfl

/-! curCommit -/

@[simp] theorem curCommit_aw (n : Nat) (s : State) : (curCommit n s).aw = s.aw := rfl
@[simp] theorem curCommit_lw (n : Nat) (s : State) : (curCommit n s).lw = s.lw := rfl
@[simp] theorem curCommit_vin (n : Nat) (s : State) : (curCommit n s).vin = s.vin := rfl
@[simp] theorem curCommit_vout (n : Nat) (s : State) : (curCommit n s).vout = s.vout := rfl
@[simp] theorem curCommit_dst (n : Nat) (s : State) : (curCommit n s).dst = s.dst := rfl
@[simp] theorem curCommit_cnt (n : Nat) (s : State) : (curCommit n s).cnt = s.cnt := rfl
@[simp] theorem curCommit_pos (n : Nat) (s : State) : (curCommit n s).pos = addr s.pos n := rfl
@[simp] theorem curCommit_rem (n : Nat) (s : State) : (curCommit n s).rem = s.rem - BitVec.ofNat s.lw n := rfl
@[simp] theorem curCommit_st (n : Nat) (s : State) : (curCommit n s).st = s.st := rfl
@[simp] theorem curCommit_mem (n : Nat) (s : State) : (curCommit n s).mem = s.mem := rfl
@[simp] theorem curCommit_pending (n : Nat) (s : State) : (curCommit n s).pending = s.pending := rfl
@[simp] theorem curCommit_returned (n : Nat) (s : State) : (curCommit n s).returned = s.returned := rfl
@[simp] theorem curCommit_trace (n : Nat) (s : State) : (curCommit n s).trace = s.trace := rfl
@[simp] theorem curCommit_draws (n : Nat) (s : State) : (curCommit n s).draws = s.draws := rfl

/-! curFail -/

@[simp] theorem curFail_aw (s : State) : (curFail s).aw = s.aw := rfl
@[simp] theorem curFail_lw (s : State) : (curFail s).lw = s.lw := rfl
@[simp] theorem curFail_vin (s : State) : (curFail s).vin = s.vin := rfl
@[simp] theorem curFail_vout (s : State) : (curFail s).vout = s.vout := rfl
@[simp] theorem curFail_dst (s : State) : (curFail s).dst = s.dst := rfl
@[simp] theorem curFail_cnt (s : State) : (curFail s).cnt = s.cnt := rfl
@[simp] theorem curFail_pos (s : State) : (curFail s).pos = s.pos := rfl
@[simp] theorem curFail_rem (s : State) : (curFail s).rem = 0#s.lw := rfl
@[simp] theorem curFail_st (s : State) : (curFail s).st = s.st := rfl
@[simp] theorem curFail_mem (s : State) : (curFail s).mem = s.mem := rfl
@[simp] theorem curFail_pending (s : State) : (curFail s).pending = s.pending := rfl
@[simp] theorem curFail_returned (s : State) : (curFail s).returned = s.returned := rfl
@[simp] theorem curFail_trace (s : State) : (curFail s).trace = s.trace := rfl
@[simp] theorem curFail_draws (s : State) : (curFail s).draws = s.draws := rfl

/-! failDecode -/

@[simp] theorem failDecode_aw (k : FailKind) (s : State) : (failDecode k s).aw = s.aw := rfl
@[simp] theorem failDecode_lw (k : FailKind) (s : State) : (failDecode k s).lw = s.lw := rfl
@[simp] theorem failDecode_vin (k : FailKind) (s : State) : (failDecode k s).vin = s.vin := rfl
@[simp] theorem failDecode_vout (k : FailKind) (s : State) : (failDecode k s).vout = Config.unspecified64 s.draws := rfl
@[simp] theorem failDecode_dst (k : FailKind) (s : State) : (failDecode k s).dst = s.dst := rfl
@[simp] theorem failDecode_cnt (k : FailKind) (s : State) : (failDecode k s).cnt = 0#4 := rfl
@[simp] theorem failDecode_pos (k : FailKind) (s : State) : (failDecode k s).pos = s.pos := rfl
@[simp] theorem failDecode_rem (k : FailKind) (s : State) : (failDecode k s).rem = 0#s.lw := rfl
@[simp] theorem failDecode_st (k : FailKind) (s : State) : (failDecode k s).st = statusFailure k := rfl
@[simp] theorem failDecode_mem (k : FailKind) (s : State) : (failDecode k s).mem = s.mem := rfl
@[simp] theorem failDecode_pending (k : FailKind) (s : State) : (failDecode k s).pending = s.pending := rfl
@[simp] theorem failDecode_returned (k : FailKind) (s : State) : (failDecode k s).returned = s.returned := rfl
@[simp] theorem failDecode_trace (k : FailKind) (s : State) : (failDecode k s).trace = s.trace := rfl
@[simp] theorem failDecode_draws (k : FailKind) (s : State) : (failDecode k s).draws = s.draws + 1 := rfl

/-! illegalCommand -/

@[simp] theorem illegalCommand_aw (s : State) : (illegalCommand s).aw = s.aw := rfl
@[simp] theorem illegalCommand_lw (s : State) : (illegalCommand s).lw = s.lw := rfl
@[simp] theorem illegalCommand_vin (s : State) : (illegalCommand s).vin = s.vin := rfl
@[simp] theorem illegalCommand_vout (s : State) : (illegalCommand s).vout = s.vout := rfl
@[simp] theorem illegalCommand_dst (s : State) : (illegalCommand s).dst = s.dst := rfl
@[simp] theorem illegalCommand_cnt (s : State) : (illegalCommand s).cnt = s.cnt := rfl
@[simp] theorem illegalCommand_pos (s : State) : (illegalCommand s).pos = s.pos := rfl
@[simp] theorem illegalCommand_rem (s : State) : (illegalCommand s).rem = s.rem := rfl
@[simp] theorem illegalCommand_st (s : State) : (illegalCommand s).st = 0b110#3 := rfl
@[simp] theorem illegalCommand_mem (s : State) : (illegalCommand s).mem = s.mem := rfl
@[simp] theorem illegalCommand_pending (s : State) : (illegalCommand s).pending = s.pending := rfl
@[simp] theorem illegalCommand_returned (s : State) : (illegalCommand s).returned = s.returned := rfl
@[simp] theorem illegalCommand_trace (s : State) : (illegalCommand s).trace = s.trace := rfl
@[simp] theorem illegalCommand_draws (s : State) : (illegalCommand s).draws = s.draws := rfl

/-! resetBlock -/

@[simp] theorem resetBlock_aw (s : State) : (resetBlock s).aw = s.aw := rfl
@[simp] theorem resetBlock_lw (s : State) : (resetBlock s).lw = s.lw := rfl
@[simp] theorem resetBlock_vin (s : State) : (resetBlock s).vin = 0#64 := rfl
@[simp] theorem resetBlock_vout (s : State) : (resetBlock s).vout = 0#64 := rfl
@[simp] theorem resetBlock_dst (s : State) : (resetBlock s).dst = 0#s.aw := rfl
@[simp] theorem resetBlock_cnt (s : State) : (resetBlock s).cnt = 0#4 := rfl
@[simp] theorem resetBlock_pos (s : State) : (resetBlock s).pos = 0#s.aw := rfl
@[simp] theorem resetBlock_rem (s : State) : (resetBlock s).rem = 0#s.lw := rfl
@[simp] theorem resetBlock_st (s : State) : (resetBlock s).st = 0b001#3 := rfl
@[simp] theorem resetBlock_mem (s : State) : (resetBlock s).mem = s.mem := rfl
@[simp] theorem resetBlock_pending (s : State) : (resetBlock s).pending = s.pending := rfl
@[simp] theorem resetBlock_returned (s : State) : (resetBlock s).returned = s.returned := rfl
@[simp] theorem resetBlock_trace (s : State) : (resetBlock s).trace = s.trace := rfl
@[simp] theorem resetBlock_draws (s : State) : (resetBlock s).draws = s.draws := rfl

/-! takeAction -/

@[simp] theorem takeAction_aw (rest : List HostAction) (s : State) : (takeAction rest s).aw = s.aw := rfl
@[simp] theorem takeAction_lw (rest : List HostAction) (s : State) : (takeAction rest s).lw = s.lw := rfl
@[simp] theorem takeAction_vin (rest : List HostAction) (s : State) : (takeAction rest s).vin = s.vin := rfl
@[simp] theorem takeAction_vout (rest : List HostAction) (s : State) : (takeAction rest s).vout = s.vout := rfl
@[simp] theorem takeAction_dst (rest : List HostAction) (s : State) : (takeAction rest s).dst = s.dst := rfl
@[simp] theorem takeAction_cnt (rest : List HostAction) (s : State) : (takeAction rest s).cnt = s.cnt := rfl
@[simp] theorem takeAction_pos (rest : List HostAction) (s : State) : (takeAction rest s).pos = s.pos := rfl
@[simp] theorem takeAction_rem (rest : List HostAction) (s : State) : (takeAction rest s).rem = s.rem := rfl
@[simp] theorem takeAction_st (rest : List HostAction) (s : State) : (takeAction rest s).st = s.st := rfl
@[simp] theorem takeAction_mem (rest : List HostAction) (s : State) : (takeAction rest s).mem = s.mem := rfl
@[simp] theorem takeAction_pending (rest : List HostAction) (s : State) : (takeAction rest s).pending = rest := rfl
@[simp] theorem takeAction_returned (rest : List HostAction) (s : State) : (takeAction rest s).returned = s.returned := rfl
@[simp] theorem takeAction_trace (rest : List HostAction) (s : State) : (takeAction rest s).trace = s.trace := rfl
@[simp] theorem takeAction_draws (rest : List HostAction) (s : State) : (takeAction rest s).draws = s.draws := rfl

/-! placeCommand -/

@[simp] theorem placeCommand_aw (c : CommandWord) (s : State) : (placeCommand c s).aw = s.aw := rfl
@[simp] theorem placeCommand_lw (c : CommandWord) (s : State) : (placeCommand c s).lw = s.lw := rfl
@[simp] theorem placeCommand_vin (c : CommandWord) (s : State) : (placeCommand c s).vin = s.vin := rfl
@[simp] theorem placeCommand_vout (c : CommandWord) (s : State) : (placeCommand c s).vout = s.vout := rfl
@[simp] theorem placeCommand_dst (c : CommandWord) (s : State) : (placeCommand c s).dst = s.dst := rfl
@[simp] theorem placeCommand_cnt (c : CommandWord) (s : State) : (placeCommand c s).cnt = s.cnt := rfl
@[simp] theorem placeCommand_pos (c : CommandWord) (s : State) : (placeCommand c s).pos = s.pos := rfl
@[simp] theorem placeCommand_rem (c : CommandWord) (s : State) : (placeCommand c s).rem = s.rem := rfl
@[simp] theorem placeCommand_st (c : CommandWord) (s : State) : (placeCommand c s).st = s.st := rfl
@[simp] theorem placeCommand_mem (c : CommandWord) (s : State) : (placeCommand c s).mem = s.mem := rfl
@[simp] theorem placeCommand_pending (c : CommandWord) (s : State) : (placeCommand c s).pending = .cmd c :: s.pending := rfl
@[simp] theorem placeCommand_returned (c : CommandWord) (s : State) : (placeCommand c s).returned = s.returned := rfl
@[simp] theorem placeCommand_trace (c : CommandWord) (s : State) : (placeCommand c s).trace = s.trace := rfl
@[simp] theorem placeCommand_draws (c : CommandWord) (s : State) : (placeCommand c s).draws = s.draws := rfl

@[simp] theorem port_mem (s : State) : (port s).mem = s.mem := rfl
@[simp] theorem port_trace (s : State) : (port s).trace = s.trace := rfl
@[simp] theorem memRead_byte {aw : Nat} (p : Port) (a : BitVec aw) : (memRead p a).1 = p.mem.read a.toNat := rfl
@[simp] theorem memRead_mem {aw : Nat} (p : Port) (a : BitVec aw) : (memRead p a).2.mem = p.mem := rfl
@[simp] theorem memRead_trace {aw : Nat} (p : Port) (a : BitVec aw) : (memRead p a).2.trace = p.trace ++ [.read a.toNat] := rfl
@[simp] theorem memWrite_mem {aw : Nat} (p : Port) (a : BitVec aw) (v : Byte) : (memWrite p a v).mem = p.mem.write a.toNat v := rfl
@[simp] theorem memWrite_trace {aw : Nat} (p : Port) (a : BitVec aw) (v : Byte) :
    (memWrite p a v).trace = p.trace ++ [.write a.toNat v] := rfl
@[simp] theorem statusSuccess_eq : statusSuccess = 0b001#3 := rfl
@[simp] theorem statusFailure_exhausted : statusFailure .exhausted = 0b010#3 := rfl
@[simp] theorem statusFailure_overlong : statusFailure .overlong = 0b100#3 := rfl
@[simp] theorem statusIllegal_eq : statusIllegal = 0b110#3 := rfl

/-- The failure operation, as one update: the five writes of 60_exceptions.md R153 and the draw. -/
theorem failDecode_eq (k : FailKind) (s : State) :
    failDecode k s =
      { s with vout := Config.unspecified64 s.draws, draws := s.draws + 1, cnt := 0, rem := 0, st := statusFailure k } := rfl

end Sys2Proof.Machine
end

