-- ==== Sys2Proof/Laws/Unpack.lean ====
section
/-! SUPPORT. The unpacker: everything `unpack_W` does, said once (spec/42_varint_unpack.md R112 to R116). -/

namespace Sys2Proof.Machine

open Sys2Proof.Claims

theorem maxLen_32 : maxLen 32 = 5 := rfl
theorem maxLen_64 : maxLen 64 = 10 := rfl

/-- The excess test of R111 is the mask test of R115. -/
theorem excess_iff {W : Nat} (hW : W = 32 ∨ W = 64) (b : Byte) :
    wirePayload b >>> (W - 7 * (maxLen W - 1)) ≠ 0#7 ↔ excessPayload W b := by
  unfold excessPayload
  rcases hW with rfl | rfl
  · revert b; decide
  · revert b; decide

/-- Without excess, the last payload fits below value bit W. -/
theorem payload_fits {W : Nat} (hW : W = 32 ∨ W = 64) {b : Byte} (h : ¬ excessPayload W b) :
    (wirePayload b).toNat < 2 ^ (W - 7 * (maxLen W - 1)) := by
  rw [← excess_iff hW, not_not] at h
  have h := congrArg BitVec.toNat h
  rw [BitVec.toNat_ushiftRight, Nat.shiftRight_eq_div_pow, BitVec.toNat_zero, Nat.div_eq_zero_iff] at h
  exact h.resolve_left (by positivity)

/-- One round's accumulation adds the group above what is there (30_encoding.md R75). -/
theorem acc_toNat {W i : Nat} (acc : BitVec W) (b : Byte) (ha : acc.toNat < 2 ^ (7 * i)) (hW : 7 ≤ W)
    (hf : 2 ^ (7 * i) * (wirePayload b).toNat < 2 ^ W) :
    (acc ||| ((wirePayload b).setWidth W <<< (7 * i))).toNat = acc.toNat + 2 ^ (7 * i) * (wirePayload b).toNat := by
  have hp : (wirePayload b).toNat < 2 ^ W :=
    (wirePayload b).isLt.trans_le (Nat.pow_le_pow_right (by omega) hW)
  rw [BitVec.toNat_or, BitVec.toNat_shiftLeft, BitVec.toNat_setWidth, Nat.mod_eq_of_lt hp, Nat.shiftLeft_eq, Nat.mul_comm,
    Nat.mod_eq_of_lt hf, Nat.or_comm, Nat.mul_comm, ← Nat.shiftLeft_eq, ← Nat.shiftLeft_add_eq_or_of_lt ha, Nat.shiftLeft_eq]
  ring

theorem readsFrom_succ {aw : Nat} (pos : BitVec aw) (n : Nat) :
    readsFrom pos (n + 1) = readsFrom pos n ++ [.read (addr pos n).toNat] := by
  simp [readsFrom, List.range_succ]

theorem windowBytes_succ {aw : Nat} (m : Memory) (pos : BitVec aw) (n : Nat) :
    windowBytes m pos (n + 1) = windowBytes m pos n ++ [windowByte m pos n] := by
  simp [windowBytes, List.range_succ]

@[simp] theorem windowBytes_length {aw : Nat} (m : Memory) (pos : BitVec aw) (n : Nat) : (windowBytes m pos n).length = n := by
  simp [windowBytes]

theorem addr_succ {aw : Nat} (pos : BitVec aw) (i : Nat) : addr pos i + 1#aw = addr pos (i + 1) := by
  unfold addr
  rw [BitVec.add_assoc]
  congr 1
  apply BitVec.eq_of_toNat_eq
  simp

/-- What one answer of the unpacker says of the window, and which reads were made. -/
def unpackAnswer {aw lw : Nat} (W : Nat) (pos : BitVec aw) (rem : BitVec lw) (p : Port) (r : Unpacked W × Port) : Prop :=
  match r.1 with
  | .ok u n => windowHolds W p.mem pos rem.toNat u.toNat n ∧ r.2 = { p with trace := p.trace ++ readsFrom pos n }
  | .fail .exhausted => windowExhausted W p.mem pos rem.toNat ∧ r.2 = { p with trace := p.trace ++ readsFrom pos rem.toNat }
  | .fail .overlong => windowOverlong W p.mem pos rem.toNat ∧ r.2 = { p with trace := p.trace ++ readsFrom pos (maxLen W) }

/-- One round of the unpacker: it answers, or the rest of the loop does. -/
theorem unpackRound {aw lw W : Nat} (hW : W = 32 ∨ W = 64) (pos : BitVec aw) (rem : BitVec lw) (p : Port) (fuel i : Nat)
    (acc : BitVec W) (r : BitVec lw) (hf : i + (fuel + 1) = maxLen W) (hr : r.toNat + i = rem.toNat)
    (hm : ∀ k < i, wireMore (windowByte p.mem pos k) = true) (hacc : acc.toNat = wireValue (windowBytes p.mem pos i))
    (next : i + 1 < maxLen W → ∀ (r' : BitVec lw) (acc' : BitVec W), r'.toNat + (i + 1) = rem.toNat →
      (∀ k < i + 1, wireMore (windowByte p.mem pos k) = true) → acc'.toNat = wireValue (windowBytes p.mem pos (i + 1)) →
      unpackAnswer W pos rem p
        (unpackLoop fuel acc' (addr pos (i + 1)) r' (i + 1) { p with trace := p.trace ++ readsFrom pos (i + 1) })) :
    unpackAnswer W pos rem p
      (unpackLoop (fuel + 1) acc (addr pos i) r i { p with trace := p.trace ++ readsFrom pos i }) := by
  have h7 : 7 ≤ W ∧ W - 7 * (maxLen W - 1) + 7 * (maxLen W - 1) = W := by rcases hW with rfl | rfl <;> decide
  have hport : (memRead { p with trace := p.trace ++ readsFrom pos i } (addr pos i)).2
      = { p with trace := p.trace ++ readsFrom pos (i + 1) } := by
    simp [memRead, readsFrom_succ]
  have hbyte : (memRead { p with trace := p.trace ++ readsFrom pos i } (addr pos i)).1 = windowByte p.mem pos i := rfl
  unfold unpackLoop
  simp only [hport, hbyte, addr_succ]
  generalize hb : windowByte p.mem pos i = b
  split
  · next h0 =>
    subst h0
    have hi : i = rem.toNat := by simpa using hr
    exact ⟨⟨by omega, hi ▸ hm⟩, by rw [hi]⟩
  · next h0 =>
    have hr0 : r.toNat ≠ 0 := fun h => h0 (BitVec.eq_of_toNat_eq (by simpa using h))
    have hr1 : (r - 1#lw).toNat + (i + 1) = rem.toNat := by
      have : 1 < 2 ^ lw := by have := r.isLt; omega
      rw [BitVec.toNat_sub_of_le (by rw [BitVec.le_def, BitVec.toNat_ofNat, Nat.mod_eq_of_lt this]; omega),
        BitVec.toNat_ofNat, Nat.mod_eq_of_lt this]
      omega
    have hover : overlongAt W i b = true ↔ i + 1 = maxLen W ∧ (wireMore b = true ∨ excessPayload W b) := by
      unfold overlongAt
      rw [Bool.and_eq_true, decide_eq_true_eq, Bool.or_eq_true, decide_eq_true_eq]
      refine and_congr_right fun hi => ?_
      rw [← excess_iff hW, show maxLen W - 1 = i by omega]
    split
    · next ho =>
      obtain ⟨hi, ho⟩ := hover.1 ho
      have hi' : maxLen W - 1 = i := by omega
      refine ⟨⟨by omega, hi' ▸ hm, ?_⟩, by rw [hi]⟩
      rw [hi', hb]
      exact ho
    · next ho =>
      rw [hover] at ho
      have hlt : 2 ^ (7 * i) * (wirePayload b).toNat < 2 ^ W := by
        rcases Nat.lt_or_ge (i + 1) (maxLen W) with h | h
        · have := wirePayload_lt b
          calc 2 ^ (7 * i) * (wirePayload b).toNat < 2 ^ (7 * i) * 2 ^ 7 := by
                exact Nat.mul_lt_mul_of_pos_left (by omega) (by positivity)
            _ = 2 ^ (7 * i + 7) := (pow_add _ _ _).symm
            _ ≤ 2 ^ W := Nat.pow_le_pow_right (by omega) (by omega)
        · have hi : maxLen W - 1 = i := by omega
          have := payload_fits hW (b := b) fun hx => ho ⟨by omega, .inr hx⟩
          rw [hi] at this h7
          calc 2 ^ (7 * i) * (wirePayload b).toNat < 2 ^ (7 * i) * 2 ^ (W - 7 * i) := by
                exact Nat.mul_lt_mul_of_pos_left this (by positivity)
            _ = 2 ^ W := by rw [← pow_add]; congr 1; omega
      have hacc' := acc_toNat acc b (hacc ▸ by simpa using wireValue_lt (windowBytes p.mem pos i)) h7.1 hlt
      rw [hacc, ← hb] at hacc'
      have hval : wireValue (windowBytes p.mem pos i) + 2 ^ (7 * i) * (wirePayload (windowByte p.mem pos i)).toNat
          = wireValue (windowBytes p.mem pos (i + 1)) := by
        rw [windowBytes_succ, wireValue_append, windowBytes_length]
      rw [hval, hb] at hacc'
      split
      · next hmore =>
        refine next (by by_contra h; exact ho ⟨by omega, .inl hmore⟩) _ _ hr1 (fun k hk => ?_) hacc'
        rcases Nat.lt_or_ge k i with h | h
        · exact hm k h
        · rw [show k = i by omega, hb]; exact hmore
      · next hmore =>
        refine ⟨⟨i, rfl, by omega, hm, by rw [hb]; simpa using hmore, fun hi hx => ?_, hacc'⟩, rfl⟩
        rw [hb] at hx
        exact ho ⟨hi, .inr hx⟩

/-- The loop of the unpacker, from any byte index it can stand at (42_varint_unpack.md R111, R116). -/
theorem unpackLoop_answer {aw lw W : Nat} (hW : W = 32 ∨ W = 64) (pos : BitVec aw) (rem : BitVec lw) (p : Port) (fuel i : Nat)
    (acc : BitVec W) (r : BitVec lw) (hf : i + (fuel + 1) = maxLen W) (hr : r.toNat + i = rem.toNat)
    (hm : ∀ k < i, wireMore (windowByte p.mem pos k) = true) (hacc : acc.toNat = wireValue (windowBytes p.mem pos i)) :
    unpackAnswer W pos rem p
      (unpackLoop (fuel + 1) acc (addr pos i) r i { p with trace := p.trace ++ readsFrom pos i }) := by
  induction fuel generalizing i acc r with
  | zero => exact unpackRound hW pos rem p 0 i acc r hf hr hm hacc fun h => by omega
  | succ fuel ih =>
    exact unpackRound hW pos rem p (fuel + 1) i acc r hf hr hm hacc fun _ r' acc' hr' hm' hacc' =>
      ih (i + 1) acc' r' (by omega) hr' hm' hacc'

/-- Everything `unpack_W` does (42_varint_unpack.md R112 to R116, 20_memory.md R57). -/
theorem unpack_answer {aw lw W : Nat} (hW : W = 32 ∨ W = 64) (pos : BitVec aw) (rem : BitVec lw) (p : Port) :
    unpackAnswer W pos rem p (unpack W pos rem p) := by
  have h1 : maxLen W = maxLen W - 1 + 1 := by rcases hW with rfl | rfl <;> rfl
  have := unpackLoop_answer hW pos rem p (maxLen W - 1) 0 0#W rem (by omega) (by omega) (by simp) (by simp [windowBytes, wireValue])
  simp only [addr, readsFrom, List.range_zero, List.map_nil, List.append_nil, BitVec.add_zero] at this
  rwa [← h1] at this

/-- Success excludes the two failures, and determines the value and the length (42_varint_unpack.md R116). -/
theorem windowHolds_unique {aw W : Nat} {m : Memory} {pos : BitVec aw} {rem u n u' n' : Nat} (h : windowHolds W m pos rem u n)
    (h' : windowHolds W m pos rem u' n') : u = u' ∧ n = n' := by
  obtain ⟨t, rfl, -, hm, he, -, rfl⟩ := h
  obtain ⟨t', rfl, -, hm', he', -, rfl⟩ := h'
  have : t = t' := by
    rcases Nat.lt_trichotomy t t' with h | h | h
    · rw [hm' t h] at he; cases he
    · exact h
    · rw [hm t' h] at he'; cases he'
  subst this
  exact ⟨rfl, rfl⟩

theorem windowHolds_not_exhausted {aw W : Nat} {m : Memory} {pos : BitVec aw} {rem u n : Nat} (h : windowHolds W m pos rem u n) :
    ¬ windowExhausted W m pos rem := by
  obtain ⟨t, -, ht, -, he, -, -⟩ := h
  rintro ⟨-, hx⟩
  rw [hx t (by omega)] at he
  cases he

theorem windowHolds_not_overlong {aw W : Nat} {m : Memory} {pos : BitVec aw} {rem u n : Nat} (h : windowHolds W m pos rem u n) :
    ¬ windowOverlong W m pos rem := by
  obtain ⟨t, -, ht, -, he, hx, -⟩ := h
  rintro ⟨hl, ho, hb⟩
  rcases Nat.lt_or_ge t (maxLen W - 1) with h | h
  · rw [ho t h] at he; cases he
  · have : t = maxLen W - 1 := by omega
    subst this
    rcases hb with hb | hb
    · rw [hb] at he; cases he
    · exact hx (by omega) hb

theorem windowExhausted_not_overlong {aw W : Nat} {m : Memory} {pos : BitVec aw} {rem : Nat} (h : windowExhausted W m pos rem) :
    ¬ windowOverlong W m pos rem := fun h' => by have := h.1; have := h'.1; omega

/-- A window that holds a value is unpacked to it (42_varint_unpack.md R112). -/
theorem unpack_ok {aw lw W : Nat} (hW : W = 32 ∨ W = 64) {pos : BitVec aw} {rem : BitVec lw} {p : Port} {u n : Nat}
    (h : windowHolds W p.mem pos rem.toNat u n) :
    ∃ v : BitVec W, v.toNat = u ∧ unpack W pos rem p = (.ok v n, { p with trace := p.trace ++ readsFrom pos n }) := by
  have ha := unpack_answer hW pos rem p
  unfold unpackAnswer at ha
  rcases hr : unpack W pos rem p with ⟨a | a, q⟩
  · rw [hr] at ha
    obtain ⟨h1, h2⟩ := windowHolds_unique ha.1 h
    exact ⟨a, h1, by rw [← h2, ← ha.2]⟩
  · rw [hr] at ha
    cases a
    · exact absurd ha.1 (windowHolds_not_exhausted h)
    · exact absurd ha.1 (windowHolds_not_overlong h)

/-- A window that ends too early is answered EXHAUSTED (42_varint_unpack.md R114). -/
theorem unpack_exhausted {aw lw W : Nat} (hW : W = 32 ∨ W = 64) {pos : BitVec aw} {rem : BitVec lw} {p : Port}
    (h : windowExhausted W p.mem pos rem.toNat) :
    unpack W pos rem p = (.fail .exhausted, { p with trace := p.trace ++ readsFrom pos rem.toNat }) := by
  have ha := unpack_answer hW pos rem p
  unfold unpackAnswer at ha
  rcases hr : unpack W pos rem p with ⟨a | a, q⟩
  · rw [hr] at ha
    exact absurd h (windowHolds_not_exhausted ha.1)
  · rw [hr] at ha
    cases a
    · rw [← ha.2]
    · exact absurd ha.1 (windowExhausted_not_overlong h)

/-- An over-long window is answered OVERLONG (42_varint_unpack.md R115). -/
theorem unpack_overlong {aw lw W : Nat} (hW : W = 32 ∨ W = 64) {pos : BitVec aw} {rem : BitVec lw} {p : Port}
    (h : windowOverlong W p.mem pos rem.toNat) :
    unpack W pos rem p = (.fail .overlong, { p with trace := p.trace ++ readsFrom pos (maxLen W) }) := by
  have ha := unpack_answer hW pos rem p
  unfold unpackAnswer at ha
  rcases hr : unpack W pos rem p with ⟨a | a, q⟩
  · rw [hr] at ha
    exact absurd h (windowHolds_not_overlong ha.1)
  · rw [hr] at ha
    cases a
    · exact absurd h (windowExhausted_not_overlong ha.1)
    · rw [← ha.2]

end Sys2Proof.Machine
end

