-- ==== Sys2Proof/Laws/Zigzag.lean ====
section
/-! SUPPORT. The zigzag transform: what it is bit by bit and as integers (spec/40_zigzag.md R90, R91). -/

namespace Sys2Proof.Machine

open Sys2Proof.Claims

/-- `n >>a (W-1)`: every bit is the sign bit (40_zigzag.md R90). -/
theorem sshiftRight_sign {W : Nat} (n : BitVec W) : n.sshiftRight (W - 1) = if n.msb then BitVec.allOnes W else 0#W := by
  apply BitVec.eq_of_getLsbD_eq
  intro i hi
  rw [BitVec.getLsbD_sshiftRight]
  by_cases h0 : i = 0
  · subst h0
    rw [Nat.add_zero, if_pos (by omega), ← BitVec.msb_eq_getLsbD_last]
    cases n.msb
    · simp
    · rw [if_pos rfl, BitVec.getLsbD_allOnes]
      simp only [Bool.and_true, ← Nat.not_lt, decide_not, Bool.not_not]
  · have : ¬ W - 1 + i < W := by omega
    cases h : n.msb <;> simp [this, hi]

/-- `neg_W(u AND 1)`: every bit is bit 0 of u (40_zigzag.md R91). -/
theorem neg_and_one {W : Nat} (u : BitVec W) : -(u &&& 1#W) = if u.getLsbD 0 then BitVec.allOnes W else 0#W := by
  rcases Nat.eq_zero_or_pos W with rfl | hW
  · exact Subsingleton.elim _ _
  · have h1 : u &&& 1#W = if u.getLsbD 0 then 1#W else 0#W := by
      apply BitVec.eq_of_getLsbD_eq
      intro i hi
      by_cases h0 : i = 0
      · subst h0
        rw [BitVec.getLsbD_and]
        cases u.getLsbD 0 <;> simp [hi]
      · cases u.getLsbD 0 <;> simp [h0, hi]
    rw [h1]
    split
    · exact BitVec.neg_one_eq_allOnes
    · simp

/-- `zigzagEncode_W` with the sign told apart. -/
theorem zigzagEncode_sign {W : Nat} (n : BitVec W) : zigzagEncode n = if n.msb then ~~~(n <<< 1) else n <<< 1 := by
  unfold zigzagEncode
  rw [sshiftRight_sign]
  split <;> simp [BitVec.xor_allOnes]

/-- `zigzagDecode_W` with even and odd codes told apart. -/
theorem zigzagDecode_parity {W : Nat} (u : BitVec W) : zigzagDecode u = if u.getLsbD 0 then ~~~(u >>> 1) else u >>> 1 := by
  unfold zigzagDecode
  rw [neg_and_one]
  split <;> simp [BitVec.xor_allOnes]

/-- The code of a value as an integer (40_zigzag.md R90, "As integers"). -/
theorem zigzagEncode_toNat {W : Nat} (hW : 0 < W) (n : BitVec W) : (zigzagEncode n).toNat = foldSigned n.toInt := by
  obtain ⟨k, rfl⟩ : ∃ k, W = k + 1 := ⟨W - 1, by omega⟩
  have hn := n.isLt
  have hp : (2 : Nat) ^ (k + 1) = 2 * 2 ^ k := by rw [pow_succ]; omega
  have hi := BitVec.toInt_eq_msb_cond n
  have hm := BitVec.msb_eq_decide n
  have hl : (n <<< 1).toNat = 2 * n.toNat % 2 ^ (k + 1) := by rw [BitVec.toNat_shiftLeft, Nat.shiftLeft_eq]; ring_nf
  rw [Nat.add_sub_cancel] at hm
  rw [zigzagEncode_sign, foldSigned]
  generalize hP : (2 : Nat) ^ (k + 1) = P at *
  generalize (2 : Nat) ^ k = Q at *
  cases h : n.msb
  · simp only [h, Bool.false_eq_true, if_false] at hi ⊢
    rw [h, eq_comm, decide_eq_false_iff_not] at hm
    rw [hi, if_pos (by omega), hl, Nat.mod_eq_of_lt (by omega)]
    omega
  · simp only [h, if_true] at hi ⊢
    rw [h, eq_comm, decide_eq_true_eq] at hm
    rw [hi, if_neg (by omega), BitVec.toNat_not, hl, hP, Nat.mod_eq_sub_mod (by omega), Nat.mod_eq_of_lt (by omega)]
    omega

/-- The value of a code as an integer (40_zigzag.md R91, "As integers"). -/
theorem zigzagDecode_toInt {W : Nat} (hW : 0 < W) (u : BitVec W) : (zigzagDecode u).toInt = unfoldCode u.toNat := by
  obtain ⟨k, rfl⟩ : ∃ k, W = k + 1 := ⟨W - 1, by omega⟩
  have hu := u.isLt
  have hp : (2 : Nat) ^ (k + 1) = 2 * 2 ^ k := by rw [pow_succ]; omega
  have hb : u.getLsbD 0 = decide (u.toNat % 2 = 1) := by simp [BitVec.getLsbD, Nat.testBit_zero]
  have hs : (u >>> 1).toNat = u.toNat / 2 := by simp [BitVec.toNat_ushiftRight, Nat.shiftRight_eq_div_pow]
  rw [zigzagDecode_parity, hb, unfoldCode]
  simp only [decide_eq_true_eq]
  rcases Nat.mod_two_eq_zero_or_one u.toNat with h | h
  · rw [if_pos h, if_neg (by omega), BitVec.toInt_eq_toNat_cond, hs]
    generalize (2 : Nat) ^ (k + 1) = P at *
    generalize (2 : Nat) ^ k = Q at *
    rw [if_pos (by omega)]
  · rw [if_neg (by omega : ¬ u.toNat % 2 = 0), if_pos h, BitVec.toInt_eq_toNat_cond, BitVec.toNat_not, hs]
    generalize (2 : Nat) ^ (k + 1) = P at *
    generalize (2 : Nat) ^ k = Q at *
    rw [if_neg (by omega)]
    omega

/-- An integer of the W-bit range has its code in range, and folding and unfolding undo each other. -/
theorem unfold_fold (z : Int) : unfoldCode (foldSigned z) = z := by
  unfold foldSigned unfoldCode
  split <;> split <;> omega

theorem fold_unfold (u : Nat) : foldSigned (unfoldCode u) = u := by
  unfold foldSigned unfoldCode
  split <;> split <;> omega

end Sys2Proof.Machine
end

