-- ==== Sys2Proof/Laws/Commands.lean ====
section
/-! SUPPORT. The shared command bodies: everything a pure, an encode and a decode command does, said once. -/

namespace Sys2Proof.Machine

open Sys2Proof.Claims

/-- A pure command as one update. -/
theorem pureCommand_eq {W : Nat} (v : BitVec W) (s : State) : pureCommand v s = { s with vout := v.setWidth 64, st := 0b001#3 } := rfl

/-- A decode command on a window that holds a value. -/
theorem decodeCommand_ok {W : Nat} (hW : W = 32 ∨ W = 64) (finish : BitVec W → BitVec W) {s : State} {u n : Nat}
    (h : windowHolds W s.mem s.pos s.rem.toNat u n) :
    decodeCommand finish s = decodedFrom s ((finish (BitVec.ofNat W u)).setWidth 64) n := by
  obtain ⟨v, hv, hu⟩ := unpack_ok (p := port s) hW h
  have hv' : BitVec.ofNat W u = v := by rw [← hv, BitVec.ofNat_toNat, BitVec.setWidth_eq]
  simp only [decodeCommand, curOpen, hu, hv']
  rfl

/-- A decode command on a window that ends too early. -/
theorem decodeCommand_exhausted {W : Nat} (hW : W = 32 ∨ W = 64) (finish : BitVec W → BitVec W) {s : State}
    (h : windowExhausted W s.mem s.pos s.rem.toNat) :
    decodeCommand finish s = failedFrom s (Config.unspecified64 s.draws) 0b010#3 s.rem.toNat := by
  simp only [decodeCommand, curOpen, unpack_exhausted (p := port s) hW h]
  rfl

/-- A decode command on an over-long window. -/
theorem decodeCommand_overlong {W : Nat} (hW : W = 32 ∨ W = 64) (finish : BitVec W → BitVec W) {s : State}
    (h : windowOverlong W s.mem s.pos s.rem.toNat) :
    decodeCommand finish s = failedFrom s (Config.unspecified64 s.draws) 0b100#3 (maxLen W) := by
  simp only [decodeCommand, curOpen, unpack_overlong (p := port s) hW h]
  rfl

/-- The three windows are all there are (42_varint_unpack.md R116). -/
theorem window_cases {W : Nat} (hW : W = 32 ∨ W = 64) {aw lw : Nat} (m : Memory) (pos : BitVec aw) (rem : BitVec lw) :
    (∃ u n, u < 2 ^ W ∧ windowHolds W m pos rem.toNat u n) ∨ windowExhausted W m pos rem.toNat ∨ windowOverlong W m pos rem.toNat := by
  have ha := unpack_answer hW pos rem ⟨m, []⟩
  unfold unpackAnswer at ha
  split at ha
  · next u n _ => exact .inl ⟨_, n, u.isLt, ha.1⟩
  · exact .inr (.inl ha.1)
  · exact .inr (.inr ha.1)

/-- Everything a decode command can do. -/
theorem decodeCommand_cases {W : Nat} (hW : W = 32 ∨ W = 64) (finish : BitVec W → BitVec W) (s : State) :
    (∃ u n, u < 2 ^ W ∧ windowHolds W s.mem s.pos s.rem.toNat u n ∧
      decodeCommand finish s = decodedFrom s ((finish (BitVec.ofNat W u)).setWidth 64) n) ∨
    (windowExhausted W s.mem s.pos s.rem.toNat ∧
      decodeCommand finish s = failedFrom s (Config.unspecified64 s.draws) 0b010#3 s.rem.toNat) ∨
    (windowOverlong W s.mem s.pos s.rem.toNat ∧
      decodeCommand finish s = failedFrom s (Config.unspecified64 s.draws) 0b100#3 (maxLen W)) := by
  rcases window_cases hW s.mem s.pos s.rem with ⟨u, n, hu, h⟩ | h | h
  · exact .inl ⟨u, n, hu, h, decodeCommand_ok hW finish h⟩
  · exact .inr (.inl ⟨h, decodeCommand_exhausted hW finish h⟩)
  · exact .inr (.inr ⟨h, decodeCommand_overlong hW finish h⟩)

/-- A pure command, by its result. -/
theorem exec_pure {i : Instr} (h : i.isPure = true) (s : State) : ∃ v, exec i s = .next { s with vout := v, st := 0b001#3 } := by
  cases i <;> first | exact ⟨_, rfl⟩ | cases h

/-- An encode command, by the value it packs. -/
theorem exec_encode {i : Instr} (h : i.isEncode = true) (s : State) :
    ∃ u : BitVec i.width, exec i s = .next (packCommand u s) := by
  cases i <;> first | exact ⟨_, rfl⟩ | cases h

/-- A decode command, by what it does to the unpacked value. -/
theorem exec_decode {i : Instr} (h : i.isDecode = true) : ∃ f : BitVec i.width → BitVec i.width, ∀ s, exec i s = .next (decodeCommand f s) := by
  cases i <;> first | exact ⟨_, fun _ => rfl⟩ | cases h

theorem width_cases (i : Instr) : i.width = 32 ∨ i.width = 64 := by
  cases i <;> first | exact .inl rfl | exact .inr rfl

/-- Every command is of one of the three kinds (00_scope.md R13). -/
theorem kind_cases (i : Instr) : i.isPure = true ∨ i.isEncode = true ∨ i.isDecode = true := by
  cases i <;> decide

end Sys2Proof.Machine
end

