-- ==== Sys2Proof/Laws/Step.lean ====
section
/-! SUPPORT. One step: what it can be, and how runs are made of steps. -/

namespace Sys2Proof.Machine

/-- A step that goes on: the block idles, or the host's next action is performed. -/
theorem step_cases {s t : State} (h : step s = .next t) :
    (s.pending = [] ∧ t = s) ∨ ∃ a rest, s.pending = a :: rest ∧ perform a (takeAction rest s) = .next t := by
  unfold step at h
  split at h
  · next hp => exact .inl ⟨hp, by cases h; rfl⟩
  · next a rest hp => exact .inr ⟨a, rest, hp, h⟩

/-- A step with an action waiting performs it. -/
theorem step_action (s : State) (a : HostAction) (rest : List HostAction) (h : s.pending = a :: rest) :
    step s = perform a (takeAction rest s) := by
  unfold step
  rw [h]

/-- A word that decodes is its command; any other is an illegal command. -/
theorem issueCommand_cases (c : CommandWord) (s : State) :
    (∃ i, decode c = .ok i ∧ issueCommand c s = exec i s) ∨ issueCommand c s = .next (illegalCommand s) := by
  unfold issueCommand
  split
  · next i h => exact .inl ⟨i, h, rfl⟩
  · exact .inr rfl

theorem run_zero (s : State) : Host.Core.run core 0 s = .next s := rfl

/-- A run's first step. -/
theorem run_succ {s t : State} (k : Nat) (h : step s = .next t) : Host.Core.run core (k + 1) s = Host.Core.run core k t := by
  have hs : core.step s = .next t := h
  have h2 := Host.Core.run.eq_2 core s k
  rw [hs] at h2
  exact h2

/-- A run that stops at its first step. -/
theorem run_stop {s : State} {r : Host.Outcome State Fault Refusal} (k : Nat) (h : step s = r) (hr : ∀ t, r ≠ .next t) :
    Host.Core.run core (k + 1) s = r := by
  have hs : core.step s = r := h
  have h2 := Host.Core.run.eq_2 core s k
  rw [hs] at h2
  cases r
  · exact absurd rfl (hr _)
  · exact h2
  · exact h2

/-- A run of j + k steps is a run of j and then one of k. -/
theorem run_add {s t : State} (j k : Nat) (h : Host.Core.run core j s = .next t) :
    Host.Core.run core (j + k) s = Host.Core.run core k t := by
  induction j generalizing s with
  | zero =>
    rw [run_zero] at h
    cases h
    rw [Nat.zero_add]
  | succ j ih =>
    rw [Nat.add_right_comm]
    rcases hs : step s with s' | r | r
    · rw [run_succ j hs] at h
      rw [run_succ (j + k) hs, ih h]
    · rw [run_stop j (r := .fault r) hs (by simp)] at h
      cases h
    · rw [run_stop j (r := .refused r) hs (by simp)] at h
      cases h

end Sys2Proof.Machine
end

