-- ==== Sys2Proof/Laws/Windows.lean ====
section
/-! SUPPORT. Windows that hold packed bytes, and what an encode command leaves for a later decode. -/

namespace Sys2Proof.Machine

open Sys2Proof.Claims

/-- The operand of a wide command is all of VIN. -/
theorem operand_64 (s : State) : operand 64 s = s.vin := by
  unfold operand; exact BitVec.extractLsb'_eq_self

/-- What the two widths have in common. -/
theorem width_facts (i : Instr) : 7 ≤ i.width ∧ maxLen i.width ≤ 10 := by rcases width_cases i with h | h <;> rw [h] <;> decide

/-- No byte sequence that carries a value is shorter than its packed form. -/
theorem wireLength_minimal (bs : List Byte) (h : wireTerminated bs = true) : wireLength (wireValue bs) ≤ bs.length := by
  have h1 : 1 ≤ bs.length := by cases bs <;> simp [wireTerminated] at h ⊢
  exact (wireLength_le_iff h1).2 (wireValue_lt bs)

/-- The codes of a signed range. -/
theorem foldSigned_lt (z : Int) (j : Nat) : foldSigned z < 2 ^ (j + 1) ↔ -2 ^ j ≤ z ∧ z < 2 ^ j := by
    have hc : ((2 ^ j : Nat) : Int) = 2 ^ j := by push_cast; rfl
    have : (2:Nat) ^ (j + 1) = 2 * 2 ^ j := by rw [pow_succ]; ring
    rw [foldSigned, this]
    split <;> omega

/-- A value a window holds fits the width. -/
theorem windowHolds_lt {aw W : Nat} (hW : W = 32 ∨ W = 64) {m : Memory} {pos : BitVec aw} {rem u n : Nat} (h : windowHolds W m pos rem u n) : u < 2 ^ W := by
  obtain ⟨t, rfl, ht, hm, he, hx, rfl⟩ := h
  have h7 : 7 ≤ W ∧ W - 7 * (maxLen W - 1) + 7 * (maxLen W - 1) = W := by rcases hW with rfl | rfl <;> decide
  rcases Nat.lt_or_ge (t + 1) (maxLen W) with h | h
  · have h1 := wireValue_lt (windowBytes m pos (t+1))
    rw [windowBytes_length] at h1
    exact h1.trans_le (Nat.pow_le_pow_right (by omega) (by omega))
  · have hi : maxLen W - 1 = t := by omega
    rw [windowBytes_succ, wireValue_append, windowBytes_length]
    have h1 := wireValue_lt (windowBytes m pos t)
    rw [windowBytes_length] at h1
    have h2 := payload_fits hW (hx (by omega))
    rw [hi] at h2 h7
    calc _ < 2 ^ (7 * t) + 2 ^ (7 * t) * (wirePayload (windowByte m pos t)).toNat := by omega
      _ = 2 ^ (7 * t) * ((wirePayload (windowByte m pos t)).toNat + 1) := by ring
      _ ≤ 2 ^ (7 * t) * 2 ^ (W - 7 * t) := Nat.mul_le_mul_left _ h2
      _ = 2 ^ W := by rw [← pow_add]; congr 1; omega

/-- Windows that agree byte by byte hold the same bytes. -/
theorem windowBytes_congr {aw} {m m' : Memory} {pos : BitVec aw} {n : Nat} (h : ∀ k < n, windowByte m' pos k = windowByte m pos k) {j} (hj : j ≤ n) :
   windowBytes m' pos j = windowBytes m pos j := by
  unfold windowBytes
  exact List.map_congr_left fun k hk => h k (by have := List.mem_range.1 hk; omega)

/-- The zigzag inverse of a code, from the integer it stands for. -/
theorem zigzagDecode_ofNat {W : Nat} (hW : 0 < W) (u : Nat) (hu : u < 2 ^ W) : zigzagDecode (BitVec.ofNat W u) = BitVec.ofInt W (unfoldCode u) := by
  have := zigzagDecode_toInt hW (BitVec.ofNat W u)
  rw [BitVec.toNat_ofNat, Nat.mod_eq_of_lt hu] at this
  rw [← this, BitVec.ofInt_toInt]

/-- Folding, then unfolding. -/
theorem zigzagDecode_zigzagEncode {W} (hW : 0 < W) (x : BitVec W) : zigzagDecode (zigzagEncode x) = x := by
  apply BitVec.eq_of_toInt_eq
  rw [zigzagDecode_toInt hW, zigzagEncode_toNat hW, unfold_fold]

/-- The continuation bit of a packed byte. -/
theorem packedByte_more (u i : Nat) : wireMore (packedByte u i) = decide (i + 1 < wireLength u) := by simp [packedByte]

/-- The payload of a packed byte. -/
theorem packedByte_payload (u i : Nat) : (wirePayload (packedByte u i)).toNat = u / 2 ^ (7 * i) % 128 := by simp [packedByte]

/-- A last group that fits has no excess bit. -/
theorem not_excess_of_fits {W : Nat} (hW : W = 32 ∨ W = 64) {b : Byte} (h : (wirePayload b).toNat < 2 ^ (W - 7 * (maxLen W - 1))) : ¬ excessPayload W b := by
  rw [← excess_iff hW, not_not]
  apply BitVec.eq_of_toNat_eq
  rw [BitVec.toNat_ushiftRight, Nat.shiftRight_eq_div_pow, Nat.div_eq_of_lt h]; rfl

/-- A window over packed bytes holds the value. -/
theorem windowHolds_of_packed {aw W : Nat} (hW : W = 32 ∨ W = 64) {m : Memory} {d : BitVec aw} {rem u : Nat} (hu : u < 2 ^ W)
   (hb : ∀ i < wireLength u, windowByte m d i = packedByte u i) (hr : wireLength u ≤ rem) : windowHolds W m d rem u (wireLength u) := by
  have h7 : 7 ≤ W ∧ W - 7 * (maxLen W - 1) + 7 * (maxLen W - 1) = W ∧ W ≤ 7 * maxLen W := by rcases hW with rfl | rfl <;> decide
  have hpos := wireLength_pos u
  have hle : wireLength u ≤ maxLen W := (wireLength_le_iff (by omega)).2 (hu.trans_le (Nat.pow_le_pow_right (by omega) h7.2.2))
  refine ⟨wireLength u - 1, by omega, by omega, fun k hk => ?_, ?_, fun ht => ?_, ?_⟩
  · rw [hb k (by omega), packedByte_more]; simp; omega
  · rw [hb _ (by omega), packedByte_more]; simp; omega
  · apply not_excess_of_fits hW
    rw [hb _ (by omega), packedByte_payload, show wireLength u - 1 = maxLen W - 1 by omega]
    refine (Nat.mod_le _ _).trans_lt ?_
    rw [Nat.div_lt_iff_lt_mul (by positivity), ← pow_add, h7.2.1]; exact hu
  · have : windowBytes m d (wireLength u - 1 + 1) = packedBytes u := by
      rw [show wireLength u - 1 + 1 = wireLength u by omega]
      exact List.map_congr_left fun k hk => hb k (by simpa using hk)
    rw [this, wireValue_packedBytes]

/-- A window cut short before the last packed byte is exhausted. -/
theorem windowExhausted_of_packed {aw W : Nat} {m : Memory} {d : BitVec aw} {rem u : Nat} (hu : wireLength u ≤ maxLen W)
   (hb : ∀ i < wireLength u, windowByte m d i = packedByte u i) (hr : rem < wireLength u) : windowExhausted W m d rem :=
  ⟨by omega, fun k hk => by rw [hb k (by omega), packedByte_more]; simp; omega⟩

/-- A packed value beyond 32 bits is over-long for a narrow decode. -/
theorem windowOverlong_of_packed {aw : Nat} {m : Memory} {d : BitVec aw} {rem u : Nat} (hu : 2 ^ 32 ≤ u)
   (hb : ∀ i < wireLength u, windowByte m d i = packedByte u i) (hr : wireLength u ≤ rem) : windowOverlong 32 m d rem := by
  have h5 : ¬ wireLength u ≤ 4 := by rw [wireLength_le_iff (by omega)]; omega
  refine ⟨by show 5 ≤ rem; omega, fun k hk => ?_, ?_⟩
  · have hk : k < 4 := hk
    rw [hb k (by omega), packedByte_more]; simp; omega
  · show wireMore (windowByte m d 4) = true ∨ excessPayload 32 (windowByte m d 4)
    by_cases h6 : wireLength u ≤ 5
    · right
      have hlt : u < 2 ^ 35 := (wireLength_le_iff (by omega)).1 h6
      rw [hb 4 (by omega)]
      by_contra hx
      have := payload_fits (.inl rfl) hx
      rw [packedByte_payload] at this
      have h' : u / 2 ^ (7 * 4) % 128 < 2 ^ (32 - 7 * (maxLen 32 - 1)) := this
      have h'' : u / 268435456 % 128 < 16 := h'
      omega
    · left
      rw [hb 4 (by omega), packedByte_more]; simp; omega

/-- The bytes the packer leaves. -/
theorem pack_windowByte {aw W : Nat} (h7 : 7 ≤ W) (hM : maxLen W ≤ 16) (u : BitVec W) (d : BitVec aw) (p : Port) (ha : 4 ≤ aw) (hm : p.mem.wf) :
   ∀ i < wireLength u.toNat, windowByte (pack u d p).2.mem d i = packedByte u.toNat i := by
  intro i hi
  have h16 : 16 ≤ 2 ^ aw := Nat.pow_le_pow_right (n := 2) (by omega) ha
  have hle := wireLength_le_maxLen h7 u
  rw [pack_eq h7]
  have := storeBytes_read_same d (packedBytes u.toNat) 0 p hm (by rw [packedBytes_length]; omega) i (by rw [packedBytes_length]; exact hi)
  rw [Nat.zero_add] at this
  rw [windowByte, this]; simp [packedBytes]

/-- An encode command depends on the value only, not on its width. -/
theorem packCommand_congr {W W' : Nat} (h : 7 ≤ W) (h' : 7 ≤ W') (u : BitVec W) (u' : BitVec W') (s : State) (e : u.toNat = u'.toNat) :
    packCommand u s = packCommand u' s := by rw [packCommand_eq h, packCommand_eq h', e]

/-- CNT after an encode command. -/
theorem packCommand_cnt_of_le {W : Nat} (h7 : 7 ≤ W) (hm : maxLen W ≤ 10) (u : BitVec W) (s : State) : (packCommand u s).cnt.toNat = wireLength u.toNat := by
  have := wireLength_le_maxLen h7 u
  rw [packCommand_eq h7]
  show (BitVec.ofNat 4 _).toNat = _
  rw [BitVec.toNat_ofNat]; omega

/-- CNT after an encode command, at the two widths. -/
theorem packCommand_cnt {W} (hW : W = 32 ∨ W = 64) (u : BitVec W) (s : State) : (packCommand u s).cnt.toNat = wireLength u.toNat := by
  refine packCommand_cnt_of_le (by omega) ?_ u s
  rcases hW with rfl | rfl <;> decide

/-- A decode command over the bytes an encode command left. -/
theorem decodeCommand_of_encodedInto {W : Nat} (hW : W = 32 ∨ W = 64) (e : State) (u : BitVec W) (s0 : State) (he : encodedInto u.toNat s0 e) (f : BitVec W → BitVec W) (r : State)
   (hmem : r.mem = e.mem) (d : BitVec r.aw) (hd : ∀ k, (addr d k).toNat = (addr s0.dst k).toNat) (hpos : r.pos = d) :
   (wireLength u.toNat ≤ r.rem.toNat → decodeCommand f r = decodedFrom r ((f u).setWidth 64) (wireLength u.toNat)) ∧
   (r.rem.toNat < wireLength u.toNat → decodeCommand f r = failedFrom r (Config.unspecified64 r.draws) 0b010#3 r.rem.toNat) := by
  obtain ⟨m, rfl, h1, h2⟩ := he
  have hb : ∀ i < wireLength u.toNat, windowByte r.mem r.pos i = packedByte u.toNat i := by
    intro i hi
    rw [windowByte, hpos, hd, hmem]; exact h1 i hi
  refine ⟨fun h => ?_, fun h => ?_⟩
  · have := decodeCommand_ok hW f (windowHolds_of_packed hW u.isLt hb h)
    rw [this, BitVec.ofNat_toNat, BitVec.setWidth_eq]
  · have h7 : 7 ≤ W := by omega
    exact decodeCommand_exhausted hW f (windowExhausted_of_packed (wireLength_le_maxLen h7 u) hb h)

/-- A group of seven bits of the value a byte sequence carries. -/
theorem wireValue_group (bs : List Byte) (i : Nat) (h : i < bs.length) : wireValue bs / 2 ^ (7 * i) % 128 = (wirePayload bs[i]).toNat := by
  induction bs generalizing i with
  | nil => simp at h
  | cons b bs ih =>
    have := wirePayload_lt b
    rcases i with _ | i
    · simp only [wireValue, Nat.mul_zero, pow_zero, Nat.div_one, List.getElem_cons_zero]; omega
    · simp only [List.getElem_cons_succ]
      rw [← ih i (by simpa using h), wireValue, Nat.mul_succ, Nat.add_comm (7 * i), pow_add, ← Nat.div_div_eq_div_mul]
      congr 2; omega

/-- A byte is made of its two fields. -/
theorem wireByte_eta (b : Byte) : wireByte (wireMore b) (wirePayload b) = b := by
  revert b; decide

end Sys2Proof.Machine
end

