-- ==== Sys2Proof/Laws/Actions.lean ====
section
/-! SUPPORT. What each action of the host can do, and what no action changes. -/

namespace Sys2Proof.Machine

open Sys2Proof.Claims

/-- Every command completes, in every state. -/
theorem exec_next (i : Instr) (s : State) : ∃ t, exec i s = .next t := by
  cases i <;> exact ⟨_, rfl⟩

/-- A command changes neither the parameters nor the actions to come. -/
theorem exec_params {i : Instr} {s t : State} (h : exec i s = .next t) :
   t.aw = s.aw ∧ t.lw = s.lw ∧ t.pending = s.pending := by
  rcases kind_cases i with hk | hk | hk
  · obtain ⟨v, hv⟩ := exec_pure hk s
    rw [hv] at h; cases h
    exact ⟨rfl, rfl, rfl⟩
  · obtain ⟨u, hu⟩ := exec_encode hk s
    rw [hu] at h; cases h
    exact ⟨rfl, rfl, rfl⟩
  · obtain ⟨f, hf⟩ := exec_decode hk
    rw [hf] at h
    rcases decodeCommand_cases (width_cases i) f s with ⟨u, n, _, hh, he⟩ | ⟨_, he⟩ | ⟨_, he⟩ <;>
    · rw [he] at h; cases h
      exact ⟨rfl, rfl, rfl⟩

/-- Everything a register write can do. -/
theorem hostWrite_cases {reg v s t} (h : hostWrite reg v s = .next t) :
  ∃ (a : Value) (b c : BitVec s.aw) (d : BitVec s.lw), t = { s with vin := a, dst := b, pos := c, rem := d } := by
  unfold hostWrite at h
  split at h <;> first | cases h | skip
  all_goals
    unfold ifFits at h
    split at h <;> cases h
    exact ⟨_, _, _, _, rfl⟩

/-- No action changes the parameters or the actions to come. -/
theorem perform_params {a s t} (h : perform a s = .next t) : t.aw = s.aw ∧ t.lw = s.lw ∧ t.pending = s.pending := by
  cases a with
  | reset => cases h; exact ⟨rfl, rfl, rfl⟩
  | wr reg v =>
    obtain ⟨a, b, c, d, rfl⟩ := hostWrite_cases h
    exact ⟨rfl, rfl, rfl⟩
  | rd reg =>
    simp only [perform, hostRead] at h
    split at h <;> cases h
    exact ⟨rfl, rfl, rfl⟩
  | cmd c =>
    rcases issueCommand_cases c s with ⟨i, _, hi⟩ | hi
    · exact exec_params (hi.symm.trans h)
    · have h : issueCommand c s = .next t := h
      rw [hi] at h; cases h
      exact ⟨rfl, rfl, rfl⟩
  | mw a v =>
    simp only [perform, hostMemWrite] at h
    split at h <;> cases h
    exact ⟨rfl, rfl, rfl⟩
  | mr a =>
    simp only [perform, hostMemRead] at h
    split at h <;> cases h
    exact ⟨rfl, rfl, rfl⟩

/-- A defined action goes on. -/
theorem perform_defined {a s} (h : actionDefined s.aw s.lw a = true) : ∃ t, perform a s = .next t := by
  cases a with
  | reset => exact ⟨_, rfl⟩
  | wr reg v =>
    simp only [actionDefined, Bool.or_eq_true, Bool.and_eq_true, beq_iff_eq, decide_eq_true_eq] at h
    rcases h with ((⟨rfl, h⟩ | ⟨rfl, h⟩) | ⟨rfl, h⟩) | ⟨rfl, h⟩
    · exact ⟨_, if_pos h⟩
    · exact ⟨_, if_pos h⟩
    · exact ⟨_, if_pos h⟩
    · exact ⟨_, if_pos h⟩
  | rd reg =>
    have : ∀ reg : BitVec 3, reg ≠ 7 → (regOfNumber reg).isSome = true := by decide
    have := this reg (by simpa [actionDefined] using h)
    obtain ⟨r, hr⟩ := Option.isSome_iff_exists.1 this
    exact ⟨_, by simp only [perform, hostRead, hr]; rfl⟩
  | cmd c =>
    rcases issueCommand_cases c s with ⟨i, _, hi⟩ | hi
    · obtain ⟨t, ht⟩ := exec_next i s
      exact ⟨t, hi.trans ht⟩
    · exact ⟨_, hi⟩
  | mw a v => exact ⟨_, if_pos (by simpa [actionDefined] using h)⟩
  | mr a => exact ⟨_, if_pos (by simpa [actionDefined] using h)⟩

/-- One action of a run. -/
theorem run_action {s t : State} (k : Nat) (a : HostAction) (rest : List HostAction) (hp : s.pending = a :: rest) (h : perform a (takeAction rest s) = .next t) :
   Host.Core.run core (k + 1) s = Host.Core.run core k t := run_succ k ((step_action _ _ _ hp).trans h)

/-- A write of VIN. -/
theorem perform_wr_vin (x : BitVec 64) (s : State) : perform (.wr 0 x.toNat) s = .next { s with vin := x } := by
  show ifFits 64 x.toNat _ = _
  simp [ifFits, x.isLt]

/-- A write of DST. -/
theorem perform_wr_dst (s : State) (x : BitVec s.aw) : perform (.wr 2 x.toNat) s = .next { s with dst := x } := by
  show ifFits s.aw x.toNat _ = _
  simp [ifFits, x.isLt]

/-- A write of POS. -/
theorem perform_wr_pos (s : State) (x : BitVec s.aw) : perform (.wr 4 x.toNat) s = .next { s with pos := x } := by
  show ifFits s.aw x.toNat _ = _
  simp [ifFits, x.isLt]

/-- A write of REM. -/
theorem perform_wr_rem (s : State) (x : BitVec s.lw) : perform (.wr 5 x.toNat) s = .next { s with rem := x } := by
  show ifFits s.lw x.toNat _ = _
  simp [ifFits, x.isLt]

/-- A decode on an empty window: EXHAUSTED, with no read. -/
theorem exec_decode_empty {j : Instr} (hj : j.isDecode = true) (t : State) (h : t.rem.toNat = 0) : ∃ v, exec j t = .next { t with vout := v, cnt := 0, st := 0b010#3, draws := t.draws + 1 } := by
  obtain ⟨f, hf⟩ := exec_decode hj
  have hx : windowExhausted j.width t.mem t.pos t.rem.toNat := ⟨by rcases width_cases j with e | e <;> rw [e, h] <;> decide, by simp [h]⟩
  have e := decodeCommand_exhausted (width_cases j) f hx
  have h0 : t.rem = 0 := BitVec.eq_of_toNat_eq (by simpa using h)
  refine ⟨Config.unspecified64 t.draws, (hf t).trans (congrArg _ (e.trans ?_))⟩
  simp only [failedFrom, readsFrom, h0]
  simp

end Sys2Proof.Machine
end

