-- ==== Sys2Proof/Laws/PerInstr.lean ====
section
/-! SUPPORT. What is said of every command as syntax, one lemma per command. -/

namespace Sys2Proof.Laws

/-- The command is well formed, its word has bits 7:4 clear and lies from 0x02 to 0x0D (spec/30_encoding.md R70), bit 0 of it says the width
(R71), and it decodes to the command. -/
def WellFormed.Statement (i : Instr) : Prop :=
  i.wf ∧ 2 ≤ (encode i).toNat ∧ (encode i).toNat ≤ 13 ∧ (i.width = if (encode i).getLsbD 0 then 64 else 32) ∧ decode (encode i) = .ok i

theorem WellFormed.zzenc32 : WellFormed.Statement .zzenc32 := by unfold WellFormed.Statement; decide

theorem WellFormed.zzenc64 : WellFormed.Statement .zzenc64 := by unfold WellFormed.Statement; decide

theorem WellFormed.zzdec32 : WellFormed.Statement .zzdec32 := by unfold WellFormed.Statement; decide

theorem WellFormed.zzdec64 : WellFormed.Statement .zzdec64 := by unfold WellFormed.Statement; decide

theorem WellFormed.vpack32 : WellFormed.Statement .vpack32 := by unfold WellFormed.Statement; decide

theorem WellFormed.vpack64 : WellFormed.Statement .vpack64 := by unfold WellFormed.Statement; decide

theorem WellFormed.vunpack32 : WellFormed.Statement .vunpack32 := by unfold WellFormed.Statement; decide

theorem WellFormed.vunpack64 : WellFormed.Statement .vunpack64 := by unfold WellFormed.Statement; decide

theorem WellFormed.putzint : WellFormed.Statement .putzint := by unfold WellFormed.Statement; decide

theorem WellFormed.putzlong : WellFormed.Statement .putzlong := by unfold WellFormed.Statement; decide

theorem WellFormed.readzint : WellFormed.Statement .readzint := by unfold WellFormed.Statement; decide

theorem WellFormed.readzlong : WellFormed.Statement .readzlong := by unfold WellFormed.Statement; decide

end Sys2Proof.Laws
end

