-- ==== Sys2Proof/Tests/Slice0.lean ====
section
/-! SUPPORT. Tests on small states, with the results taken from the spec (each comment says from where), and for every statement with hypotheses a state and operands
that meet them. -/

namespace Sys2Proof.Tests

open Sys2Proof.Machine Sys2Proof.Claims

/-- Bytes laid out from an address on. -/
def lay (a : Nat) : List Byte → Memory → Memory
  | [], m => m
  | b :: bs, m => lay (a + 1) bs (m.write a b)

/-- The state after reset with an operand and a destination. -/
def encodeAt (vin : Value) (dst : BitVec 32) : State := { State.reset with vin := vin, dst := dst }

/-- The start state of the rows of 95_test_vectors.md 2.4: POS = 0x100, the bytes there, REM as listed. -/
def decodeAt (rem : BitVec 32) (bs : List Byte) : State := { State.reset with pos := (0x100#32 : BitVec 32), rem := rem, mem := lay 0x100 bs [] }

/-- The state after reset with actions to come. -/
def hostDoes (as : List HostAction) (s : State) : State := { s with pending := as }

/-- What is seen of an outcome that goes on. -/
def seen {A : Type} (f : State → A) : Host.Outcome State Fault Refusal → Option A
  | .next t => some (f t)
  | _ => none

/-- VOUT and ST. -/
def voutSt (t : State) : Nat × Nat := (t.vout.toNat, t.st.toNat)

/-- CNT, ST, VOUT and n bytes of MEM from an address on. -/
def stored (a n : Nat) (t : State) : Nat × Nat × Nat × List Byte :=
  (t.cnt.toNat, t.st.toNat, t.vout.toNat, (List.range n).map (fun k => t.mem.read (a + k)))

/-- VOUT, CNT, POS, REM, ST and the number of byte accesses. -/
def decoded (t : State) : Nat × Nat × Nat × Nat × Nat × Nat :=
  (t.vout.toNat, t.cnt.toNat, t.pos.toNat, t.rem.toNat, t.st.toNat, t.trace.length)

/-- CNT, POS, REM, ST and the number of byte accesses: all but VOUT, which no rule gives after a failure. -/
def failed (t : State) : Nat × Nat × Nat × Nat × Nat := (t.cnt.toNat, t.pos.toNat, t.rem.toNat, t.st.toNat, t.trace.length)

/-! ## The fields of a command word (30_encoding.md R70, R76) -/

/-- Bits 7:4 "must be 0b0000". -/
theorem test_ill_formed_zero_field : ¬ (CommandFields.mk 1 5 0).zeroClear ∧ ¬ (CommandFields.mk 1 5 0).wf := by decide

/-- Function 0 is reserved. -/
theorem test_ill_formed_function_0 : ¬ (CommandFields.mk 0 0 0).functionLegal ∧ ¬ (CommandFields.mk 0 0 1).wf := by decide

/-- Function 7 is reserved. -/
theorem test_ill_formed_function_7 : ¬ (CommandFields.mk 0 7 0).functionLegal ∧ ¬ (CommandFields.mk 0 7 1).wf := by decide

/-! ## Decoding: words written out from the table of 30_encoding.md R70, and the rows of 95_test_vectors.md 2.7 -/

theorem test_decode_zzenc32 : decode 0b00000010#8 = .ok .zzenc32 := by decide

theorem test_decode_zzenc64 : decode 0b00000011#8 = .ok .zzenc64 := by decide

theorem test_decode_zzdec32 : decode 0b00000100#8 = .ok .zzdec32 := by decide

theorem test_decode_zzdec64 : decode 0b00000101#8 = .ok .zzdec64 := by decide

theorem test_decode_vpack32 : decode 0b00000110#8 = .ok .vpack32 := by decide

theorem test_decode_vpack64 : decode 0b00000111#8 = .ok .vpack64 := by decide

theorem test_decode_vunpack32 : decode 0b00001000#8 = .ok .vunpack32 := by decide

theorem test_decode_vunpack64 : decode 0b00001001#8 = .ok .vunpack64 := by decide

theorem test_decode_putzint : decode 0b00001010#8 = .ok .putzint := by decide

theorem test_decode_putzlong : decode 0b00001011#8 = .ok .putzlong := by decide

theorem test_decode_readzint : decode 0b00001100#8 = .ok .readzint := by decide

theorem test_decode_readzlong : decode 0b00001101#8 = .ok .readzlong := by decide

theorem test_reserved_low : decode 0x00#8 = .error .reservedFunction ∧ decode 0x01#8 = .error .reservedFunction := by decide

theorem test_reserved_high : decode 0x0E#8 = .error .reservedFunction ∧ decode 0x0F#8 = .error .reservedFunction := by decide

theorem test_reserved_zero_field :
    decode 0x12#8 = .error .zeroFieldSet ∧ decode 0x8A#8 = .error .zeroFieldSet ∧ decode 0xFF#8 = .error .zeroFieldSet := by decide

theorem test_neighbours_of_putzint :
    decode 0x0B#8 = .ok .putzlong ∧ decode 0x08#8 = .ok .vunpack32 ∧ decode 0x02#8 = .ok .zzenc32 ∧ decode 0x2A#8 = .error .zeroFieldSet := by decide

theorem test_decodeTableWord : decodeTableWord 8 0x0D = some .readzlong ∧ decodeTableWord 8 0x0E = none := by decide

/-! ## Commands: the rows of 95_test_vectors.md -/

/-- 2.1: INT32_MIN, no overflow. -/
theorem test_zzenc32_min : seen voutSt (exec .zzenc32 (encodeAt 0x0000000080000000#64 0)) = some (0xFFFFFFFF, 1) := by decide

/-- 2.1, upper-half check. -/
theorem test_zzenc32_upper_half : seen voutSt (exec .zzenc32 (encodeAt 0xDEADBEEF00000001#64 0)) = some (0x2, 1) := by decide

/-- 2.1: -2147483649. -/
theorem test_zzenc64_straddles : seen voutSt (exec .zzenc64 (encodeAt 0xFFFFFFFF7FFFFFFF#64 0)) = some (0x100000001, 1) := by decide

/-- 2.1: -81985529216486895. -/
theorem test_zzenc64_mixed : seen voutSt (exec .zzenc64 (encodeAt 0xFEDCBA9876543211#64 0)) = some (0x02468ACF13579BDD, 1) := by decide

/-- 2.1, upper-half check. -/
theorem test_zzdec32_not_sign_extended : seen voutSt (exec .zzdec32 (encodeAt 0x1#64 0)) = some (0xFFFFFFFF, 1) := by decide

/-- 2.1: -12346. -/
theorem test_zzdec32_odd : seen voutSt (exec .zzdec32 (encodeAt 0xDEADBEEF00006073#64 0)) = some (0xFFFFCFC6, 1) := by decide

/-- 2.1: INT64_MIN. -/
theorem test_zzdec64_min : seen voutSt (exec .zzdec64 (encodeAt 0xFFFFFFFFFFFFFFFF#64 0)) = some (0x8000000000000000, 1) := by decide

/-- 2.1: 4294967296. -/
theorem test_zzdec64_even : seen voutSt (exec .zzdec64 (encodeAt 0x0000000200000000#64 0)) = some (0x0000000100000000, 1) := by decide

/-- 2.2, untouched bytes; VIN[63:32] is ignored (10_state.md R21). -/
theorem test_vpack32_untouched :
    seen (stored 0x100 5) (exec .vpack32 (encodeAt 0xFFFFFFFF00000080#64 0x100#32)) = some (2, 1, 0, [0x80#8, 0x01#8, 0xEE#8, 0xEE#8, 0xEE#8]) := by decide

/-- 2.2, wrap at the top of the address space. -/
theorem test_vpack32_wraps :
    seen (fun t => (t.cnt.toNat, [0xFFFFFFFE, 0xFFFFFFFF, 0, 1, 2, 3].map t.mem.read)) (exec .vpack32 (encodeAt 0xFFFFFFFF#64 0xFFFFFFFE#32)) =
      some (5, [0xFF#8, 0xFF#8, 0xFF#8, 0xFF#8, 0x0F#8, 0xEE#8]) := by decide

/-- 2.2. -/
theorem test_vpack64_mixed :
    seen (stored 0x100 10) (exec .vpack64 (encodeAt 0x02468ACF13579BDE#64 0x100#32)) = some (9, 1, 0, [0xDE#8, 0xB7#8, 0xDE#8, 0x9A#8, 0xF1#8, 0xD9#8, 0xA2#8, 0xA3#8, 0x02#8, 0xEE#8]) := by decide

/-- 2.2. -/
theorem test_vpack64_max :
    seen (stored 0x100 11) (exec .vpack64 (encodeAt 0xFFFFFFFFFFFFFFFF#64 0x100#32)) = some (10, 1, 0, [0xFF#8, 0xFF#8, 0xFF#8, 0xFF#8, 0xFF#8, 0xFF#8, 0xFF#8, 0xFF#8, 0xFF#8, 0x01#8, 0xEE#8]) := by decide

/-- 2.5: -300; program P1. -/
theorem test_putzint_negative :
    seen (stored 0x1000 3) (exec .putzint (encodeAt 0xFFFFFFFFFFFFFED4#64 0x1000#32)) = some (2, 1, 0, [0xD7#8, 0x04#8, 0xEE#8]) := by decide

/-- 2.5; section 4: `[40]` is false. -/
theorem test_putzint_64 : seen (stored 0x1000 3) (exec .putzint (encodeAt 0x40#64 0x1000#32)) = some (2, 1, 0, [0x80#8, 0x01#8, 0xEE#8]) := by decide

/-- 2.5: 2^40. -/
theorem test_putzlong_2_40 :
    seen (stored 0x2006 7) (exec .putzlong (encodeAt 0x10000000000#64 0x2006#32)) = some (6, 1, 0, [0x80#8, 0x80#8, 0x80#8, 0x80#8, 0x80#8, 0x40#8, 0xEE#8]) := by decide

/-- 2.3: -2^62. -/
theorem test_putzlong_below_10 :
    seen (stored 0x20 10) (exec .putzlong (encodeAt 0xC000000000000000#64 0x20#32)) = some (9, 1, 0, [0xFF#8, 0xFF#8, 0xFF#8, 0xFF#8, 0xFF#8, 0xFF#8, 0xFF#8, 0xFF#8, 0x7F#8, 0xEE#8]) := by decide

/-- 2.4 S5: non-minimal, accepted. -/
theorem test_vunpack32_S5 :
    seen decoded (exec .vunpack32 (decodeAt 8 [0x80#8, 0x80#8, 0x80#8, 0x80#8, 0x00#8, 0xFF#8, 0xFF#8, 0xFF#8])) = some (0, 5, 0x105, 3, 1, 5) := by decide

/-- 2.4 F8: OVERLONG. -/
theorem test_vunpack32_F8 :
    seen failed (exec .vunpack32 (decodeAt 5 [0x80#8, 0x80#8, 0x80#8, 0x80#8, 0x10#8])) = some (0, 0x100, 0, 4, 5) := by decide

/-- 2.4 S7. -/
theorem test_vunpack64_S7 :
    seen decoded (exec .vunpack64 (decodeAt 10 [0xFF#8, 0xFF#8, 0xFF#8, 0xFF#8, 0xFF#8, 0xFF#8, 0xFF#8, 0xFF#8, 0xFF#8, 0x01#8])) = some (0xFFFFFFFFFFFFFFFF, 10, 0x10A, 0, 1, 10) := by decide

/-- 2.4 F11: OVERLONG. -/
theorem test_vunpack64_F11 :
    seen failed (exec .vunpack64 (decodeAt 10 [0xFF#8, 0xFF#8, 0xFF#8, 0xFF#8, 0xFF#8, 0xFF#8, 0xFF#8, 0xFF#8, 0xFF#8, 0x02#8])) = some (0, 0x100, 0, 4, 10) := by decide

/-- 2.5: -300, VOUT[63:32] = 0. -/
theorem test_readzint_upper_half :
    seen decoded (exec .readzint (decodeAt 6 [0xD7#8, 0x04#8, 0xEE#8])) = some (0xFFFFFED4, 2, 0x102, 4, 1, 2) := by decide

/-- 2.4 F1: EXHAUSTED with no read. -/
theorem test_readzint_F1 : seen failed (exec .readzint (decodeAt 0 [0x02#8])) = some (0, 0x100, 0, 2, 0) := by decide

/-- 2.5, cross-width; program P4 line 5. -/
theorem test_readzlong_cross_width :
    seen decoded (exec .readzlong (decodeAt 6 [0xFF#8, 0xFF#8, 0xFF#8, 0xFF#8, 0x1F#8, 0x02#8])) = some (0xFFFFFFFF00000000, 5, 0x105, 1, 1, 5) := by decide

/-- 2.6 K4: EXHAUSTED. -/
theorem test_readzlong_K4 :
    seen failed (exec .readzlong (decodeAt 5 [0x80#8, 0x80#8, 0x80#8, 0x80#8, 0x80#8])) = some (0, 0x100, 0, 2, 5) := by decide

/-- 2.6 K8. -/
theorem test_cursor_wraps :
    seen decoded (exec .vunpack32 { State.reset with
        pos := (0xFFFFFFFE#32 : BitVec 32), rem := (5#32 : BitVec 32), mem := lay 0 [0xFF#8, 0xFF#8, 0x0F#8] (lay 0xFFFFFFFE [0xFF#8, 0xFF#8] []) }) = some (0xFFFFFFFF, 5, 3, 0, 1, 5) := by decide

/-- Section 4, last line: a ZZENC32 after a failure leaves ST = 0b001. -/
theorem test_status_is_of_the_last_command : seen (fun t => t.st.toNat) (exec .zzenc32 { State.reset with st := 0b010#3 }) = some 1 := by decide

/-- 00_scope.md R6. -/
theorem test_maxLen : maxLen 32 = 5 ∧ maxLen 64 = 10 := by decide

/-- 2.2. -/
theorem test_wire_format :
    packedBytes 300 = [0xAC#8, 0x02#8] ∧ wireValue [0xAC#8, 0x02#8] = 300 ∧ wireTerminated [0xAC#8, 0x02#8] = true ∧ wireLength 0 = 1 := by decide

/-! ## The host's actions -/

/-- Program P4 line 8. -/
theorem test_reserved_word :
    seen (fun t => (t.st.toNat, t.vout.toNat, t.trace.length)) (step (hostDoes [.cmd 0x1C#8] (encodeAt 5 0))) = some (6, 0, 0) := by decide

/-- Program P5 line 2. -/
theorem test_withFetchWord : seen voutSt (step (State.withFetchWord (encodeAt 12345 0) 8 0x02)) = some (0x6072, 1) := by decide

/-- 2.8. -/
theorem test_reset_keeps_memory :
    seen (fun t => (t.vin.toNat, t.dst.toNat, t.mem.read 7)) (step (hostDoes [.reset] { encodeAt 5 9 with mem := [(7, 1#8)] })) = some (0, 0, 1#8) := by decide

/-- The canonical form (log 6). -/
theorem test_write_back_to_unlisted : (Memory.write [(7, 1#8)] 7 0xEE#8) = [] ∧ Memory.write [] 7 1#8 = [(7, 1#8)] := by decide

/-- Program P1 line 1. -/
theorem test_script_negative : scriptActions (aw := 32) (.wr .vin (-300)) = some [.wr 0 0xFFFFFFFFFFFFFED4] := by decide

/-- Program P1 line 3. -/
theorem test_script_cmd : scriptActions (aw := 32) (.cmd .putzint) = some [.cmd 0x0A#8] ∧ ofMnemonic "PUTZINT" = some .putzint := by decide

/-- 30_encoding.md R80: `addr +_AW i`. -/
theorem test_script_bytes_wrap : scriptActions (aw := 32) (.mw 0xFFFFFFFF [1#8, 2#8]) = some [.mw 0xFFFFFFFF 1#8, .mw 0 2#8] := by decide

/-! ## Witnesses: for each statement with hypotheses, a state and operands that meet them -/

theorem witness_DecodeAndEncodeAgree : decode 0b00001010#8 = .ok .putzint := by decide

theorem witness_ReservedWordWritesIllegalOnly :
    ((0x00#8).toNat < 2 ∨ 13 < (0x00#8).toNat) ∧ ((0x01#8).toNat < 2 ∨ 13 < (0x01#8).toNat) ∧
      ((0x0E#8).toNat < 2 ∨ 13 < (0x0E#8).toNat) ∧ ((0xFF#8).toNat < 2 ∨ 13 < (0xFF#8).toNat) := by decide

theorem witness_StepRunsTheIssuedCommand :
    (hostDoes [.cmd 0b00000010#8] State.reset).pending = .cmd 0b00000010#8 :: [] ∧ decode 0b00000010#8 = .ok .zzenc32 := by decide

theorem witness_IdleBlockKeepsItsState : State.reset.pending = [] := by decide

theorem witness_ResetStateHoldsTheTable : Config.legal 4 4 ∧ Config.legal 32 32 ∧ ¬ Config.legal 3 4 := by decide

theorem witness_TooWideValuesAreRefused_vin :
    seen (fun t => t.vin.toNat) (step (hostDoes [.wr 0 (2 ^ 64 - 1)] State.reset)) = some (2 ^ 64 - 1) ∧
      (match step (hostDoes [.wr 0 (2 ^ 64)] State.reset) with | .refused .valueTooWide => true | _ => false) = true := by decide

theorem witness_TooWideValuesAreRefused_dst :
    seen (fun t => t.dst.toNat) (step (hostDoes [.wr 2 (2 ^ 32 - 1)] State.reset)) = some (2 ^ 32 - 1) ∧
      (match step (hostDoes [.wr 2 (2 ^ 32)] State.reset) with | .refused .valueTooWide => true | _ => false) = true := by decide

theorem witness_TooWideValuesAreRefused_pos :
    seen (fun t => t.pos.toNat) (step (hostDoes [.wr 4 (2 ^ 32 - 1)] State.reset)) = some (2 ^ 32 - 1) ∧
      (match step (hostDoes [.wr 4 (2 ^ 32)] State.reset) with | .refused .valueTooWide => true | _ => false) = true := by decide

theorem witness_TooWideValuesAreRefused_rem :
    seen (fun t => t.rem.toNat) (step (hostDoes [.wr 5 (2 ^ 32 - 1)] State.reset)) = some (2 ^ 32 - 1) ∧
      (match step (hostDoes [.wr 5 (2 ^ 32)] State.reset) with | .refused .valueTooWide => true | _ => false) = true := by decide

theorem witness_HostRegisterTransactions :
    [HostAction.wr 1 0, .wr 3 0, .wr 6 0].all (fun a => match step (hostDoes [a] State.reset) with | .refused .registerNotHostWritable => true | _ => false) = true ∧
      [HostAction.wr 7 0, .rd 7].all (fun a => match step (hostDoes [a] State.reset) with | .refused .noSuchRegister => true | _ => false) = true := by decide

theorem witness_HostMemoryActions :
    State.reset.mem.wf ∧ seen (fun t => t.mem) (step (hostDoes [.mw (2 ^ 32 - 1) 5#8] State.reset)) = some [(2 ^ 32 - 1, 5#8)] := by decide

theorem witness_NumbersThatAreNoAddressFault :
    2 ^ State.reset.aw ≤ 2 ^ 32 ∧
      [HostAction.mw (2 ^ 32) 5#8, .mr (2 ^ 32)].all (fun a => match step (hostDoes [a] State.reset) with | .fault .noSuchAddress => true | _ => false) = true := by decide

theorem witness_DefinedActionsNeverStop :
    hostKeepsToTransactions (hostDoes [.reset, .wr 0 (2 ^ 64 - 1), .wr 5 (2 ^ 32 - 1), .rd 6, .cmd 0xFF#8, .mw 0 1#8, .mr (2 ^ 32 - 1)] State.reset) := by decide

theorem witness_StepKeepsTheHostToTransactions :
    hostKeepsToTransactions (hostDoes [.wr 4 (2 ^ 32 - 1), .mr (2 ^ 32 - 1)] State.reset) ∧ hostKeepsToTransactions State.reset := by decide

theorem witness_ResetMeetsTheInvariant : Config.legal 4 4 ∧ Config.legal 32 4 := by decide

theorem witness_EveryStepKeepsTheInvariant :
    Inv (hostDoes [.cmd 0b00001010#8] State.reset) ∧ seen (fun t => t.cnt.toNat) (step (hostDoes [.cmd 0b00001010#8] State.reset)) = some 1 := by decide

theorem witness_StepKeepsTheParameters : seen (fun t => (t.aw, t.lw)) (step (hostDoes [.wr 4 16] (State.resetWith 5 4))) = some (5, 4) := by decide

theorem witness_CanonicalMemoriesReadingAlikeAreEqual :
    Memory.wf [(3, 1#8), (7, 2#8)] ∧ Memory.wf (Memory.write (Memory.write [] 7 2#8) 3 1#8) ∧
      ∀ a, Memory.read [(3, 1#8), (7, 2#8)] a = Memory.read (Memory.write (Memory.write [] 7 2#8) 3 1#8) a := ⟨by decide, by decide, fun _ => rfl⟩

theorem witness_ZigzagBitsAndIntegers :
    (0 ≤ (0x7FFFFFFF#32).toInt ∧ (0x80000000#32).toInt < 0) ∧ (0xFFFFFFFE#32).toNat % 2 = 0 ∧ (0xFFFFFFFF#32).toNat % 2 = 1 ∧
      (1 ≤ 31 ∧ 31 ≤ 32 - 1) ∧ 30 + 2 ≤ 32 := by decide

theorem witness_ZigzagLaws : (2 ^ 31 - 1 < 2 ^ (32 - 1)) ∧ (1 ≤ 32 ∧ 32 ≤ 32) ∧ Instr.isPure .zzdec64 = true := by decide

theorem witness_Vpack32StoresTheVarint :
    Config.legal (encodeAt 300 0xFFFFFFFE).aw (encodeAt 300 0xFFFFFFFE).lw ∧ (encodeAt 300 0xFFFFFFFE).mem.wf := by decide

theorem witness_Vpack64StoresTheVarint :
    Config.legal (encodeAt 300 0xFFFFFFFE).aw (encodeAt 300 0xFFFFFFFE).lw ∧ (encodeAt 300 0xFFFFFFFE).mem.wf := by decide

theorem witness_PutzintStoresTheFoldedVarint :
    Config.legal (encodeAt 300 0xFFFFFFFE).aw (encodeAt 300 0xFFFFFFFE).lw ∧ (encodeAt 300 0xFFFFFFFE).mem.wf := by decide

theorem witness_PutzlongStoresTheFoldedVarint :
    Config.legal (encodeAt 300 0xFFFFFFFE).aw (encodeAt 300 0xFFFFFFFE).lw ∧ (encodeAt 300 0xFFFFFFFE).mem.wf := by decide

theorem witness_PureAndEncodeCommandsCannotFail : Instr.isPure .zzenc32 = true ∧ Instr.isEncode .putzlong = true := by decide

theorem witness_PackedBytesCarryTheValue : (128 : Nat) ≠ 0 ∧ 2 ≤ 2 ∧ wireLength 128 = 2 ∧ wireLength 127 = 1 := by decide

theorem witness_PackIsBoundedAndMinimal : wireTerminated [0x80#8, 0x00#8] = true ∧ wireValue [0x80#8, 0x00#8] = (0#32).toNat := by decide

theorem witness_EncodeStaysInsideTheOwnedBytes :
    Instr.isEncode .vpack32 = true ∧ outputCapacity (Instr.width .vpack32) (encodeAt 0 0xFFFFFFFB) ∧ ¬ outputCapacity (Instr.width .vpack32) (encodeAt 0 0xFFFFFFFC) := by decide

theorem witness_EncodeTwiceChangesNothingMore :
    Instr.isEncode .putzint = true ∧ Config.legal (encodeAt 300 7).aw (encodeAt 300 7).lw ∧ (encodeAt 300 7).mem.wf := by decide

theorem witness_windowHolds_32_shortest :
    windowHolds 32 (decodeAt 1 [0x00#8]).mem (decodeAt 1 [0x00#8]).pos 1 0 1 := ⟨0, by decide, by decide, by decide, by decide, by unfold excessPayload; decide, by decide⟩

theorem witness_windowHolds_32_longest :
    windowHolds 32 (decodeAt 5 [0xFF#8, 0xFF#8, 0xFF#8, 0xFF#8, 0x0F#8]).mem (decodeAt 5 [0xFF#8, 0xFF#8, 0xFF#8, 0xFF#8, 0x0F#8]).pos 5 4294967295 5 := ⟨4, by decide, by decide, by decide, by decide, by unfold excessPayload; decide, by decide⟩

theorem witness_windowHolds_64_longest :
    windowHolds 64 (decodeAt 10 [0xFF#8, 0xFF#8, 0xFF#8, 0xFF#8, 0xFF#8, 0xFF#8, 0xFF#8, 0xFF#8, 0xFF#8, 0x01#8]).mem (decodeAt 10 [0xFF#8, 0xFF#8, 0xFF#8, 0xFF#8, 0xFF#8, 0xFF#8, 0xFF#8, 0xFF#8, 0xFF#8, 0x01#8]).pos 10 18446744073709551615 10 := ⟨9, by decide, by decide, by decide, by decide, by unfold excessPayload; decide, by decide⟩

theorem witness_windowExhausted_32_empty :
    windowExhausted 32 (decodeAt 0 [0x00#8]).mem (decodeAt 0 [0x00#8]).pos 0 := by unfold windowExhausted; decide

theorem witness_windowExhausted_32_longest :
    windowExhausted 32 (decodeAt 4 [0xFF#8, 0xFF#8, 0xFF#8, 0xFF#8, 0x0F#8]).mem (decodeAt 4 [0xFF#8, 0xFF#8, 0xFF#8, 0xFF#8, 0x0F#8]).pos 4 := by unfold windowExhausted; decide

theorem witness_windowExhausted_64_longest :
    windowExhausted 64 (decodeAt 9 [0xFF#8, 0xFF#8, 0xFF#8, 0xFF#8, 0xFF#8, 0xFF#8, 0xFF#8, 0xFF#8, 0xFF#8]).mem (decodeAt 9 [0xFF#8, 0xFF#8, 0xFF#8, 0xFF#8, 0xFF#8, 0xFF#8, 0xFF#8, 0xFF#8, 0xFF#8]).pos 9 := by unfold windowExhausted; decide

theorem witness_windowOverlong_32_payload :
    windowOverlong 32 (decodeAt 5 [0xFF#8, 0xFF#8, 0xFF#8, 0xFF#8, 0x1F#8]).mem (decodeAt 5 [0xFF#8, 0xFF#8, 0xFF#8, 0xFF#8, 0x1F#8]).pos 5 := by unfold windowOverlong excessPayload; decide

theorem witness_windowOverlong_32_continuation :
    windowOverlong 32 (decodeAt 5 [0xFF#8, 0xFF#8, 0xFF#8, 0xFF#8, 0x80#8]).mem (decodeAt 5 [0xFF#8, 0xFF#8, 0xFF#8, 0xFF#8, 0x80#8]).pos 5 := by unfold windowOverlong excessPayload; decide

theorem witness_windowOverlong_64_payload :
    windowOverlong 64 (decodeAt 10 [0xFF#8, 0xFF#8, 0xFF#8, 0xFF#8, 0xFF#8, 0xFF#8, 0xFF#8, 0xFF#8, 0xFF#8, 0x02#8]).mem (decodeAt 10 [0xFF#8, 0xFF#8, 0xFF#8, 0xFF#8, 0xFF#8, 0xFF#8, 0xFF#8, 0xFF#8, 0xFF#8, 0x02#8]).pos 10 := by unfold windowOverlong excessPayload; decide

theorem witness_windowOverlong_64_continuation :
    windowOverlong 64 (decodeAt 10 [0xFF#8, 0xFF#8, 0xFF#8, 0xFF#8, 0xFF#8, 0xFF#8, 0xFF#8, 0xFF#8, 0xFF#8, 0x81#8]).mem (decodeAt 10 [0xFF#8, 0xFF#8, 0xFF#8, 0xFF#8, 0xFF#8, 0xFF#8, 0xFF#8, 0xFF#8, 0xFF#8, 0x81#8]).pos 10 := by unfold windowOverlong excessPayload; decide

theorem witness_UnpackSucceedsExactlyWhen :
    windowHolds 32 (decodeAt 2 [0x80#8, 0x00#8]).mem (decodeAt 2 [0x80#8, 0x00#8]).pos 2 0 2 := ⟨1, by decide, by decide, by decide, by decide, by unfold excessPayload; decide, by decide⟩

theorem witness_Vunpack32Decodes :
    windowHolds 32 (decodeAt 2 [0x80#8, 0x00#8]).mem (decodeAt 2 [0x80#8, 0x00#8]).pos 2 0 2 := ⟨1, by decide, by decide, by decide, by decide, by unfold excessPayload; decide, by decide⟩

theorem witness_ReadzintDecodes :
    windowHolds 32 (decodeAt 2 [0x80#8, 0x00#8]).mem (decodeAt 2 [0x80#8, 0x00#8]).pos 2 0 2 := ⟨1, by decide, by decide, by decide, by decide, by unfold excessPayload; decide, by decide⟩

theorem witness_Vunpack64Decodes :
    windowHolds 64 (decodeAt 5 [0xFF#8, 0xFF#8, 0xFF#8, 0xFF#8, 0x1F#8]).mem (decodeAt 5 [0xFF#8, 0xFF#8, 0xFF#8, 0xFF#8, 0x1F#8]).pos 5 8589934591 5 := ⟨4, by decide, by decide, by decide, by decide, by unfold excessPayload; decide, by decide⟩

theorem witness_ReadzlongDecodes :
    windowHolds 64 (decodeAt 5 [0xFF#8, 0xFF#8, 0xFF#8, 0xFF#8, 0x1F#8]).mem (decodeAt 5 [0xFF#8, 0xFF#8, 0xFF#8, 0xFF#8, 0x1F#8]).pos 5 8589934591 5 := ⟨4, by decide, by decide, by decide, by decide, by unfold excessPayload; decide, by decide⟩

theorem witness_ReencodingReproducesMinimalInput :
    windowHolds 64 (decodeAt 5 [0xFF#8, 0xFF#8, 0xFF#8, 0xFF#8, 0x1F#8]).mem (decodeAt 5 [0xFF#8, 0xFF#8, 0xFF#8, 0xFF#8, 0x1F#8]).pos 5 8589934591 5 := ⟨4, by decide, by decide, by decide, by decide, by unfold excessPayload; decide, by decide⟩

theorem witness_UnpackExhaustedExactlyWhen :
    windowExhausted 32 (decodeAt 2 [0x80#8, 0x80#8]).mem (decodeAt 2 [0x80#8, 0x80#8]).pos 2 := by unfold windowExhausted; decide

theorem witness_UnpackExhaustedExactlyWhen_empty : (0#32).toNat = 0 := by decide

theorem witness_UnpackOutcomeTable_row_1 :
    (∀ j < 3, wireMore (windowByte (decodeAt 4 [0xFF#8, 0xFF#8, 0xFF#8, 0x7F#8]).mem (decodeAt 4 [0xFF#8, 0xFF#8, 0xFF#8, 0x7F#8]).pos j) = true) ∧ wireMore (windowByte (decodeAt 4 [0xFF#8, 0xFF#8, 0xFF#8, 0x7F#8]).mem (decodeAt 4 [0xFF#8, 0xFF#8, 0xFF#8, 0x7F#8]).pos 3) = false ∧ 3 < maxLen 32 - 1 := by decide

theorem witness_UnpackOutcomeTable_row_2_fits :
    (∀ j < 4, wireMore (windowByte (decodeAt 5 [0xFF#8, 0xFF#8, 0xFF#8, 0xFF#8, 0x0F#8]).mem (decodeAt 5 [0xFF#8, 0xFF#8, 0xFF#8, 0xFF#8, 0x0F#8]).pos j) = true) ∧ wireMore (windowByte (decodeAt 5 [0xFF#8, 0xFF#8, 0xFF#8, 0xFF#8, 0x0F#8]).mem (decodeAt 5 [0xFF#8, 0xFF#8, 0xFF#8, 0xFF#8, 0x0F#8]).pos 4) = false ∧ ¬ excessPayload 32 (windowByte (decodeAt 5 [0xFF#8, 0xFF#8, 0xFF#8, 0xFF#8, 0x0F#8]).mem (decodeAt 5 [0xFF#8, 0xFF#8, 0xFF#8, 0xFF#8, 0x0F#8]).pos 4) := by unfold excessPayload; decide

theorem witness_UnpackOutcomeTable_row_2_excess :
    (∀ j < 4, wireMore (windowByte (decodeAt 5 [0xFF#8, 0xFF#8, 0xFF#8, 0xFF#8, 0x10#8]).mem (decodeAt 5 [0xFF#8, 0xFF#8, 0xFF#8, 0xFF#8, 0x10#8]).pos j) = true) ∧ wireMore (windowByte (decodeAt 5 [0xFF#8, 0xFF#8, 0xFF#8, 0xFF#8, 0x10#8]).mem (decodeAt 5 [0xFF#8, 0xFF#8, 0xFF#8, 0xFF#8, 0x10#8]).pos 4) = false ∧ excessPayload 32 (windowByte (decodeAt 5 [0xFF#8, 0xFF#8, 0xFF#8, 0xFF#8, 0x10#8]).mem (decodeAt 5 [0xFF#8, 0xFF#8, 0xFF#8, 0xFF#8, 0x10#8]).pos 4) := by unfold excessPayload; decide

theorem witness_UnpackOutcomeTable_row_3 :
    (∀ j < 4, wireMore (windowByte (decodeAt 5 [0xFF#8, 0xFF#8, 0xFF#8, 0xFF#8, 0x80#8]).mem (decodeAt 5 [0xFF#8, 0xFF#8, 0xFF#8, 0xFF#8, 0x80#8]).pos j) = true) ∧ wireMore (windowByte (decodeAt 5 [0xFF#8, 0xFF#8, 0xFF#8, 0xFF#8, 0x80#8]).mem (decodeAt 5 [0xFF#8, 0xFF#8, 0xFF#8, 0xFF#8, 0x80#8]).pos 4) = true := by decide

theorem witness_UnpackOutcomeTable_row_4 :
    (∀ j < 4, wireMore (windowByte (decodeAt 4 [0xFF#8, 0xFF#8, 0xFF#8, 0xFF#8, 0x80#8]).mem (decodeAt 4 [0xFF#8, 0xFF#8, 0xFF#8, 0xFF#8, 0x80#8]).pos j) = true) ∧ wireMore (windowByte (decodeAt 4 [0xFF#8, 0xFF#8, 0xFF#8, 0xFF#8, 0x80#8]).mem (decodeAt 4 [0xFF#8, 0xFF#8, 0xFF#8, 0xFF#8, 0x80#8]).pos 4) = true ∧ 4 < maxLen 32 := by decide

theorem witness_UnpackOverlongExactlyWhen :
    windowOverlong 32 (decodeAt 9 [0xFF#8, 0xFF#8, 0xFF#8, 0xFF#8, 0xFF#8, 0xFF#8, 0xFF#8, 0xFF#8, 0x7F#8]).mem (decodeAt 9 [0xFF#8, 0xFF#8, 0xFF#8, 0xFF#8, 0xFF#8, 0xFF#8, 0xFF#8, 0xFF#8, 0x7F#8]).pos 9 := by unfold windowOverlong excessPayload; decide

theorem witness_DecodeFailureEffects :
    (unpack 32 (decodeAt 4 [0xFF#8, 0xFF#8, 0xFF#8, 0xFF#8]).pos (decodeAt 4 [0xFF#8, 0xFF#8, 0xFF#8, 0xFF#8]).rem (port (decodeAt 4 [0xFF#8, 0xFF#8, 0xFF#8, 0xFF#8]))).1 = .fail .exhausted ∧
      (unpack 64 (decodeAt 10 [0xFF#8, 0xFF#8, 0xFF#8, 0xFF#8, 0xFF#8, 0xFF#8, 0xFF#8, 0xFF#8, 0xFF#8, 0x02#8]).pos (decodeAt 10 [0xFF#8, 0xFF#8, 0xFF#8, 0xFF#8, 0xFF#8, 0xFF#8, 0xFF#8, 0xFF#8, 0xFF#8, 0x02#8]).rem (port (decodeAt 10 [0xFF#8, 0xFF#8, 0xFF#8, 0xFF#8, 0xFF#8, 0xFF#8, 0xFF#8, 0xFF#8, 0xFF#8, 0x02#8]))).1 = .fail .overlong ∧ Instr.isDecode .vunpack32 = true := by decide

theorem witness_DecodeReadsOnlyTheWindow : Instr.isDecode .readzint = true := by decide

theorem witness_DecodeDependsOnlyOnTheWindow :
    Instr.isDecode .readzint = true ∧ ∀ k < min (decodeAt 1 [0x80#8, 0x01#8]).rem.toNat (maxLen (Instr.width .readzint)),
      windowByte (decodeAt 1 [0x80#8, 0x02#8]).mem (decodeAt 1 [0x80#8, 0x01#8]).pos k = windowByte (decodeAt 1 [0x80#8, 0x01#8]).mem (decodeAt 1 [0x80#8, 0x01#8]).pos k := by decide

theorem witness_AccessCounts : Instr.isPure .zzdec32 = true ∧ Instr.isEncode .vpack64 = true ∧ Instr.isDecode .readzlong = true := by decide

theorem witness_WindowEndOnlyMovesOnFailure :
    seen (fun t => t.st) (exec .readzint (decodeAt 1 [0x02#8])) = some 0b001#3 ∧ seen (fun t => t.st) (exec .readzint (decodeAt 1 [0x82#8])) = some 0b010#3 := by decide

theorem witness_DeadCursorFailsWithoutReading :
    Instr.isDecode .readzlong = true ∧ seen (fun t => t.st) (exec .readzlong (decodeAt 5 [0x80#8, 0x80#8, 0x80#8, 0x80#8, 0x80#8])) = some 0b010#3 := by decide

theorem witness_OtherCommandsIgnoreTheCursor :
    Instr.isPure .zzenc64 = true ∧ Instr.isEncode .vpack32 = true ∧ ((0x0E#8).toNat < 2 ∨ 13 < (0x0E#8).toNat) := by decide

/-- Two values end to end and the actions that read them back (95_test_vectors.md program P2, without its third value). -/
def chained : State := hostDoes [.cmd 0b00001100#8, .rd 1, .cmd 0b00001100#8, .rd 1] (decodeAt 6 [0x02#8, 0xFF#8, 0xFF#8, 0xFF#8, 0xFF#8, 0x0F#8])

theorem witness_ChainedDecodeReturnsEveryValue :
    [0x02#8, 0xFF#8, 0xFF#8, 0xFF#8, 0xFF#8, 0x0F#8] = [1#32, 0x80000000#32].flatMap (fun v => packedBytes (foldSigned v.toInt)) ∧
      (∀ k (h : k < [0x02#8, 0xFF#8, 0xFF#8, 0xFF#8, 0xFF#8, 0x0F#8].length), windowByte chained.mem chained.pos k = [0x02#8, 0xFF#8, 0xFF#8, 0xFF#8, 0xFF#8, 0x0F#8][k]) ∧
      6 ≤ chained.rem.toNat ∧ chained.pending = [1#32, 0x80000000#32].flatMap (fun _ => [.cmd 0b00001100#8, .rd 1]) := by decide

theorem witness_NoCommandReadsEarlierResults : seen (fun t => t.st) (exec .vunpack32 (decodeAt 1 [0x02#8])) = some 0b001#3 := by decide

theorem witness_NarrowCommandsIgnoreTheUpperHalf :
    Instr.width .putzint = 32 ∧ (0xDEADBEEF00000001#64).extractLsb' 0 32 = (encodeAt 1 0).vin.extractLsb' 0 32 := by decide

theorem witness_CompositesEqualTheirParts :
    seen (fun t => t.st) (exec .vunpack32 (decodeAt 1 [0x02#8])) = some 0b001#3 ∧ seen (fun t => t.st) (exec .vunpack64 (decodeAt 1 [0x82#8])) = some 0b010#3 := by decide

theorem witness_PackedBytesUnpack :
    4 ≤ 32 ∧ State.reset.mem.wf ∧ (pack 0xFFFFFFFF#32 (0#32) ⟨[], []⟩).1 ≤ (5#32).toNat ∧ (4#32).toNat < (pack 0xFFFFFFFF#32 (0#32) ⟨[], []⟩).1 ∧
      (0xFFFFFFFF#64).toNat < 2 ^ 32 ∧ 2 ^ 32 ≤ (0x100000000#64).toNat ∧
      (∀ i < (pack 0xFFFFFFFF#32 (0#32) ⟨[], []⟩).1, windowByte ((pack 0xFFFFFFFF#32 (0#32) ⟨[], []⟩).2.mem.write 5 1#8) (0#32) i = windowByte (pack 0xFFFFFFFF#32 (0#32) ⟨[], []⟩).2.mem (0#32) i) := by decide

/-- The round trip of -300 at 0x1000, with a window of B bytes (95_test_vectors.md program P1). -/
def roundTrip (B : Nat) : State :=
  hostDoes [.wr 0 0xFFFFFFFFFFFFFED4, .wr 2 0x1000, .cmd 0b00001010#8, .wr 4 0x1000, .wr 5 B, .cmd 0b00001100#8] State.reset

theorem witness_EncodeThenDecodeReturnsTheValue :
    Inv (roundTrip 5) ∧ (roundTrip 2).pending = [.wr 0 (0xFFFFFFFFFFFFFED4#64).toNat, .wr 2 (0x1000#32).toNat, .cmd 0b00001010#8,
      .wr 4 (0x1000#32).toNat, .wr 5 (2#32).toNat, .cmd 0b00001100#8] ∧ seen (fun t => t.cnt.toNat) (Host.Core.run core 3 (roundTrip 2)) = some 2 := by decide

theorem witness_EncodeThenDecodeReturnsTheValue_too_short :
    Inv (roundTrip 1) ∧ seen (fun t => (t.st.toNat, t.pos.toNat, t.rem.toNat)) (Host.Core.run core 6 (roundTrip 1)) = some (2, 0x1000, 0) := by decide

theorem witness_CrossWidthDecode :
    Config.legal (encodeAt 0x80000000 0).aw (encodeAt 0x80000000 0).lw ∧ (encodeAt 0x80000000 0).mem.wf ∧
      seen (fun t => t.cnt.toNat) (exec .putzint (encodeAt 0x80000000 0)) = some (5#32).toNat ∧
      (-2 ^ 31 ≤ (encodeAt 0xFFFFFFFF80000000 0).vin.toInt ∧ (encodeAt 0xFFFFFFFF80000000 0).vin.toInt < 2 ^ 31) ∧
      ¬ (-2 ^ 31 ≤ (encodeAt 0x80000000 0).vin.toInt ∧ (encodeAt 0x80000000 0).vin.toInt < 2 ^ 31) := by decide

theorem witness_PutZIntCallReturnsTheByteCount :
    (hostDoes (putCall .putzint 64 0x1000) State.reset).pending = putCall .putzint (64#64).toNat (0x1000#32).toNat := by decide

end Sys2Proof.Tests
end

section
/-! PROOFS. The parameters AW and LW along a step. -/

namespace Sys2Proof.Machine

/-- Settles O16: an idle block keeps its whole state, and no action of the host writes AW or LW (`perform_params`). -/
theorem stepKeepsTheParameters : Obligations.StepKeepsTheParameters := by
  intro s t h
  rcases step_cases h with ⟨_, rfl⟩ | ⟨a, rest, _, hperform⟩
  · exact ⟨rfl, rfl⟩
  · obtain ⟨haw, hlw, _⟩ := perform_params hperform
    exact ⟨haw, hlw⟩

end Sys2Proof.Machine
end

section
/-! PROOFS. What a command reads and writes, by its kind: the operand it takes from VIN, and that VOUT, CNT and ST have no influence on it
(spec/10_state.md R20, R21, R34). -/

namespace Sys2Proof.Machine

/-- A pure command, by the function of the operand it computes. -/
theorem exec_pure_operand {i : Instr} (h : i.isPure = true) :
    ∃ g : BitVec i.width → BitVec i.width, ∀ s, exec i s = .next (pureCommand (g (operand i.width s)) s) :=
  match i, h with
  | .zzenc32, _ => ⟨zigzagEncode, fun _ => rfl⟩
  | .zzenc64, _ => ⟨zigzagEncode, fun _ => rfl⟩
  | .zzdec32, _ => ⟨zigzagDecode, fun _ => rfl⟩
  | .zzdec64, _ => ⟨zigzagDecode, fun _ => rfl⟩

/-- An encode command, by the function of the operand whose value it packs. -/
theorem exec_encode_operand {i : Instr} (h : i.isEncode = true) :
    ∃ g : BitVec i.width → BitVec i.width, ∀ s, exec i s = .next (packCommand (g (operand i.width s)) s) :=
  match i, h with
  | .vpack32, _ => ⟨id, fun _ => rfl⟩
  | .vpack64, _ => ⟨id, fun _ => rfl⟩
  | .putzint, _ => ⟨zigzagEncode, fun _ => rfl⟩
  | .putzlong, _ => ⟨zigzagEncode, fun _ => rfl⟩

/-- The three kinds exclude each other (00_scope.md R13). -/
theorem kind_flags (i : Instr) :
    (i.isPure = true ∧ i.isEncode = false) ∨ (i.isPure = false ∧ i.isEncode = true) ∨
      (i.isPure = false ∧ i.isEncode = false ∧ i.isDecode = true) := by
  cases i <;> decide

/-- The end of a decode reads none of VIN, VOUT, CNT and ST, and writes the last three. -/
theorem decodeEnd_replaced {W : Nat} (f : BitVec W → BitVec W) (r : Unpacked W) (s : State) (x v : Value) (n : BitVec 4) (y : BitVec 3) :
    decodeEnd f r { s with vin := x, vout := v, cnt := n, st := y } = { decodeEnd f r s with vin := x } := by
  cases r with
  | ok u k => rfl
  | fail k => rfl

/-- A decode command reads none of VIN, VOUT, CNT and ST, and writes the last three. -/
theorem decodeCommand_replaced {W : Nat} (f : BitVec W → BitVec W) (s : State) (x v : Value) (n : BitVec 4) (y : BitVec 3) :
    decodeCommand f { s with vin := x, vout := v, cnt := n, st := y } = { decodeCommand f s with vin := x } :=
  decodeEnd_replaced f _ (setPort (unpack W s.pos s.rem (port s)).2 s) x v n y

/-- A command on a state with other values in VOUT, CNT and ST, and another VIN with the same operand: the same next state, but for the
registers the command does not write. -/
theorem exec_replaced {i : Instr} {s t : State} (h : exec i s = .next t) {x : Value} (v : Value) (n : BitVec 4) (y : BitVec 3)
    (hx : x.extractLsb' 0 i.width = s.vin.extractLsb' 0 i.width) :
    exec i { s with vin := x, vout := v, cnt := n, st := y } =
      .next { t with vin := x, vout := if i.isEncode then v else t.vout, cnt := if i.isPure then n else t.cnt } := by
  have hop : operand i.width { s with vin := x, vout := v, cnt := n, st := y } = operand i.width s := hx
  rcases kind_flags i with ⟨hp, he⟩ | ⟨hp, he⟩ | ⟨hp, he, hd⟩
  · obtain ⟨g, hg⟩ := exec_pure_operand hp
    rw [hg] at h
    cases h
    rw [hg, hop, hp, he]
    rfl
  · obtain ⟨g, hg⟩ := exec_encode_operand he
    rw [hg] at h
    cases h
    rw [hg, hop, hp, he]
    rfl
  · obtain ⟨f, hf⟩ := exec_decode hd
    rw [hf] at h
    cases h
    rw [hf, decodeCommand_replaced, hp, he]
    rfl

/-- What a command leaves as it was: VIN always, VOUT when it encodes, CNT when it is pure (10_state.md R20, R21). -/
theorem exec_unwritten {i : Instr} {s t : State} (h : exec i s = .next t) :
    t.vin = s.vin ∧ (if i.isEncode then s.vout else t.vout) = t.vout ∧ (if i.isPure then s.cnt else t.cnt) = t.cnt := by
  have heq := Host.Outcome.next.inj ((exec_replaced h s.vout s.cnt s.st rfl).symm.trans h)
  exact ⟨(congrArg State.vin heq).symm, congrArg State.vout heq, congrArg State.cnt heq⟩

/-- ST after a command: success, or a decode's failure (60_exceptions.md R150). -/
theorem exec_outcome {i : Instr} {s t : State} (h : exec i s = .next t) :
    t.st = 0b001#3 ∨ (i.isDecode = true ∧ (t.st = 0b010#3 ∨ t.st = 0b100#3)) := by
  rcases kind_cases i with hk | hk | hk
  · obtain ⟨v, hv⟩ := exec_pure hk s
    rw [hv] at h
    cases h
    exact .inl rfl
  · obtain ⟨u, hu⟩ := exec_encode hk s
    rw [hu] at h
    cases h
    exact .inl rfl
  · obtain ⟨f, hf⟩ := exec_decode hk
    rw [hf] at h
    cases h
    rcases decodeCommand_cases (width_cases i) f s with ⟨u, n, _, _, he⟩ | ⟨_, he⟩ | ⟨_, he⟩
    · exact .inl (congrArg State.st he)
    · exact .inr ⟨hk, .inl (congrArg State.st he)⟩
    · exact .inr ⟨hk, .inr (congrArg State.st he)⟩

end Sys2Proof.Machine
end

section
/-! PROOFS. The invariant: the state after reset meets it, and every command, every action of the host and every step keep it. -/

namespace Sys2Proof.Machine

open Sys2Proof.Claims

theorem statusLegal_success : statusLegal 0b001#3 := by decide

theorem statusLegal_illegal : statusLegal 0b110#3 := by decide

/-- A command leaves a legal ST (10_state.md R32). -/
theorem exec_statusLegal {i : Instr} {s t : State} (h : exec i s = .next t) : statusLegal t.st := by
  rcases exec_outcome h with hst | ⟨_, hst | hst⟩ <;> rw [hst] <;> decide

/-- A value a window holds takes at most MAXLEN(W) bytes (42_varint_unpack.md R112). -/
theorem windowHolds_length_le {aw W : Nat} {m : Memory} {pos : BitVec aw} {rem u n : Nat} (h : windowHolds W m pos rem u n) :
    n ≤ maxLen W := by
  obtain ⟨k, rfl, hk, _⟩ := h
  exact hk.trans (min_le_right _ _)

/-- CNT after a decode command is at most 10 (10_state.md R28). -/
theorem decodeCommand_cnt_le (i : Instr) (f : BitVec i.width → BitVec i.width) (s : State) : (decodeCommand f s).cnt.toNat ≤ 10 := by
  rcases decodeCommand_cases (width_cases i) f s with ⟨u, n, _, hholds, he⟩ | ⟨_, he⟩ | ⟨_, he⟩
  · have hn : n ≤ 10 := (windowHolds_length_le hholds).trans (width_facts i).2
    calc (decodeCommand f s).cnt.toNat = (BitVec.ofNat 4 n).toNat := by rw [he]; rfl
      _ ≤ n := Nat.mod_le _ _
      _ ≤ 10 := hn
  · rw [he]; exact Nat.zero_le _
  · rw [he]; exact Nat.zero_le _

/-- A decode command leaves MEM as it is (20_memory.md R57). -/
theorem decodeCommand_mem (i : Instr) (f : BitVec i.width → BitVec i.width) (s : State) : (decodeCommand f s).mem = s.mem := by
  rcases decodeCommand_cases (width_cases i) f s with ⟨u, n, _, _, he⟩ | ⟨_, he⟩ | ⟨_, he⟩ <;> rw [he] <;> rfl

/-- Every command keeps CNT at most 10 and MEM canonical and in the address space. -/
theorem exec_keeps_cnt_mem {i : Instr} {s t : State} (h : exec i s = .next t) (hcnt : s.cnt.toNat ≤ 10) (hwf : s.mem.wf)
    (hwithin : s.mem.within s.aw) : t.cnt.toNat ≤ 10 ∧ t.mem.wf ∧ t.mem.within s.aw := by
  rcases kind_cases i with hk | hk | hk
  · obtain ⟨v, hv⟩ := exec_pure hk s
    rw [hv] at h
    cases h
    exact ⟨hcnt, hwf, hwithin⟩
  · obtain ⟨u, hu⟩ := exec_encode hk s
    rw [hu] at h
    cases h
    obtain ⟨h7, hM⟩ := width_facts i
    refine ⟨?_, ?_⟩
    · rw [packCommand_cnt_of_le h7 hM]
      exact (wireLength_le_maxLen h7 u).trans hM
    · rw [packCommand_eq h7]
      exact ⟨storeBytes_wf _ _ _ _ hwf, storeBytes_within _ _ _ _ hwithin⟩
  · obtain ⟨f, hf⟩ := exec_decode hk
    rw [hf] at h
    cases h
    rw [decodeCommand_mem]
    exact ⟨decodeCommand_cnt_le i f s, hwf, hwithin⟩

/-- Every command keeps the invariant. -/
theorem exec_keeps_inv {i : Instr} {s t : State} (hs : Inv s) (h : exec i s = .next t) : Inv t := by
  obtain ⟨hlegal, _, hcnt, hwf, hwithin⟩ := hs
  obtain ⟨hcnt', hwf', hwithin'⟩ := exec_keeps_cnt_mem h hcnt hwf hwithin
  obtain ⟨haw, hlw, _⟩ := exec_params h
  rw [← haw] at hwithin'
  rw [← haw, ← hlw] at hlegal
  exact ⟨hlegal, exec_statusLegal h, hcnt', hwf', hwithin'⟩

/-- Everything a register read can do. -/
theorem hostRead_cases {reg : BitVec 3} {s t : State} (h : hostRead reg s = .next t) : ∃ rs, t = { s with returned := rs } := by
  unfold hostRead at h
  split at h <;> cases h
  exact ⟨_, rfl⟩

/-- Everything a memory read can do. -/
theorem hostMemRead_cases {a : Nat} {s t : State} (h : hostMemRead a s = .next t) : ∃ rs, t = { s with returned := rs } := by
  unfold hostMemRead at h
  split at h <;> cases h
  exact ⟨_, rfl⟩

/-- Everything a memory write can do. -/
theorem hostMemWrite_cases {a : Nat} {v : Byte} {s t : State} (h : hostMemWrite a v s = .next t) :
    a < 2 ^ s.aw ∧ t = { s with mem := s.mem.write a v } := by
  unfold hostMemWrite at h
  split at h <;> cases h
  next ha => exact ⟨ha, rfl⟩

/-- Every action of the host keeps the invariant. -/
theorem perform_keeps_inv {a : HostAction} {s t : State} (hs : Inv s) (h : perform a s = .next t) : Inv t := by
  have ⟨hlegal, hst, hcnt, hwf, hwithin⟩ := hs
  cases a with
  | reset =>
    cases h
    exact ⟨hlegal, statusLegal_success, Nat.zero_le _, hwf, hwithin⟩
  | wr reg v =>
    obtain ⟨_, _, _, _, rfl⟩ := hostWrite_cases h
    exact hs
  | rd reg =>
    obtain ⟨_, rfl⟩ := hostRead_cases h
    exact hs
  | cmd c =>
    rcases issueCommand_cases c s with ⟨i, _, hi⟩ | hi
    · exact exec_keeps_inv hs (hi.symm.trans h)
    · cases hi.symm.trans h
      exact ⟨hlegal, statusLegal_illegal, hcnt, hwf, hwithin⟩
  | mw a v =>
    obtain ⟨ha, rfl⟩ := hostMemWrite_cases h
    exact ⟨hlegal, hst, hcnt, Memory.wf_write hwf a v, Memory.within_write hwithin ha v⟩
  | mr a =>
    obtain ⟨_, rfl⟩ := hostMemRead_cases h
    exact hs

/-- Settles O15: an idle step keeps the whole state; any other takes an action from the list, which the invariant does not mention, and
performs it (`perform_keeps_inv`). -/
theorem everyStepKeepsTheInvariant : Obligations.EveryStepKeepsTheInvariant := by
  intro s t hs h
  rcases step_cases h with ⟨_, rfl⟩ | ⟨a, rest, _, hperform⟩
  · exact hs
  · have htaken : Inv (takeAction rest s) := hs
    exact perform_keeps_inv htaken hperform

theorem resetWith_inv {aw lw : Nat} (h : Config.legal aw lw) : Inv (State.resetWith aw lw) :=
  ⟨h, statusLegal_success, Nat.zero_le _, ⟨List.Pairwise.nil, by simp [State.resetWith]⟩, by simp [State.resetWith]⟩

/-- Settles O14: nothing is listed in MEM after reset, and the spec's default parameters are legal. -/
theorem resetMeetsTheInvariant : Obligations.ResetMeetsTheInvariant :=
  ⟨resetWith_inv (by decide), fun _ _ h => resetWith_inv h⟩

end Sys2Proof.Machine
end

section
/-! PROOFS. What every command reads and writes of the registers, at the level of `exec`. -/

namespace Sys2Proof.Machine

/-- Settles O51: VIN and with it the operand are the same in both states (`exec_replaced`). -/
theorem noCommandReadsEarlierResults : Obligations.NoCommandReadsEarlierResults := by
  intro i s v n x
  obtain ⟨t, ht⟩ := exec_next i s
  obtain ⟨hvin, _⟩ := exec_unwritten ht
  refine ⟨t, t.vout, ht, (exec_replaced ht (x := s.vin) v n x rfl).trans ?_, fun _ => rfl⟩
  rw [hvin]

/-- Settles O52, by the kind of the command (`exec_outcome`). -/
theorem everyCommandWritesItsOutcome : Obligations.EveryCommandWritesItsOutcome := by
  intro i s
  obtain ⟨t, ht⟩ := exec_next i s
  exact ⟨t, ht, exec_outcome ht⟩

/-- Settles O53: VIN is read through the operand only, which at width 32 is its low half (`exec_replaced` with VOUT, CNT and ST as they are). -/
theorem narrowCommandsIgnoreTheUpperHalf : Obligations.NarrowCommandsIgnoreTheUpperHalf := by
  refine ⟨fun i s => ?_, fun i hi s x hx => ?_⟩
  · obtain ⟨t, ht⟩ := exec_next i s
    exact ⟨t, ht, (exec_unwritten ht).1⟩
  · obtain ⟨t, ht⟩ := exec_next i s
    obtain ⟨_, hvout, hcnt⟩ := exec_unwritten ht
    have hreplaced := exec_replaced ht s.vout s.cnt s.st (hi ▸ hx)
    rw [hvout, hcnt] at hreplaced
    exact ⟨t, t.vout, ht, hreplaced, fun _ => rfl⟩

end Sys2Proof.Machine
end

section
/-! PROOFS. The registers after reset, and the host's transactions on them (spec/10_state.md R25, R38). -/

namespace Sys2Proof.Machine

/-- The fields of ST after a success, and after reset (10_state.md R33, R38). -/
theorem statusSuccess_fields : statusOk 0b001#3 = true ∧ statusErr 0b001#3 = 0 := by decide

/-- Settles O7: AW and LW are what was asked for, and the registers hold zero at every width, but for ST (`statusSuccess_fields`). -/
theorem resetStateHoldsTheTable : Obligations.ResetStateHoldsTheTable :=
  ⟨rfl, fun _ _ _ => ⟨rfl, rfl, rfl, rfl, BitVec.toNat_zero, rfl, BitVec.toNat_zero, BitVec.toNat_zero, statusSuccess_fields⟩⟩

/-- A step of a host that makes the given actions performs the first of them. -/
theorem step_pending_cons (s : State) (a : HostAction) (rest : List HostAction) :
    step { s with pending := a :: rest } = perform a { s with pending := rest } := rfl

/-- Settles O8: the four writes are `perform_wr_vin` to `perform_wr_rem`; the refusals and the reads follow from the register's number. -/
theorem hostRegisterTransactions : Obligations.HostRegisterTransactions := by
  intro s rest
  simp only [step_pending_cons]
  exact ⟨fun v => perform_wr_vin v _, fun v => perform_wr_dst { s with pending := rest } v,
    fun v => perform_wr_pos { s with pending := rest } v, fun v => perform_wr_rem { s with pending := rest } v,
    fun _ => rfl, fun _ => rfl, fun _ => rfl, fun _ => rfl, rfl, rfl, rfl, rfl, rfl, rfl, rfl, rfl, fun _ => rfl⟩

theorem ifFits_of_le {width v : Nat} (h : 2 ^ width ≤ v) (t : State) : ifFits width v t = .refused .valueTooWide :=
  if_neg h.not_gt

/-- Settles O9: each of the four registers is written through `ifFits` at its own width. -/
theorem tooWideValuesAreRefused : Obligations.TooWideValuesAreRefused := fun _ _ =>
  ⟨fun _ h => ifFits_of_le h _, fun _ h => ifFits_of_le h _, fun _ h => ifFits_of_le h _, fun _ h => ifFits_of_le h _⟩

end Sys2Proof.Machine
end

section
/-! PROOFS. The canonical form of MEM: what a memory reads determines it, and the host's actions on it (spec/20_memory.md R50 to R53, R60). -/

namespace Sys2Proof.Machine

/-- The cells of a canonical memory are the addresses that do not read as unlisted, with what they read as. -/
theorem Memory.mem_iff_read {m : Memory} (hm : m.wf) (c : Host.Cell) : c ∈ m ↔ m.read c.1 = c.2 ∧ c.2 ≠ Memory.unlisted := by
  induction m with
  | nil => simpa [Memory.read] using fun h => h.symm
  | cons d m ih =>
    obtain ⟨hsorted, hlisted⟩ := hm
    obtain ⟨habove, hsorted'⟩ := List.pairwise_cons.1 hsorted
    obtain ⟨hd, hlisted'⟩ := List.forall_mem_cons.1 hlisted
    rw [List.mem_cons, ih ⟨hsorted', hlisted'⟩, Memory.read_cons]
    by_cases hdc : d.1 = c.1
    · have hbelow : Memory.read m c.1 = Memory.unlisted := Memory.read_below (hdc ▸ habove)
      have hcd : c = d ↔ d.2 = c.2 := by rw [Prod.ext_iff, eq_comm (a := c.1), eq_comm (a := c.2), and_iff_right hdc]
      rw [if_pos hdc, hbelow, hcd]
      constructor
      · rintro (h | ⟨h, hne⟩)
        · exact ⟨h, h ▸ hd⟩
        · exact absurd h.symm hne
      · exact fun h => .inl h.1
    · have hcd : c ≠ d := fun h => hdc (h ▸ rfl)
      rw [if_neg hdc, or_iff_right hcd]

/-- Canonical memories that read alike are the same list: they have the same cells (`Memory.mem_iff_read`), in rising order. -/
theorem Memory.eq_of_read_eq {m m' : Memory} (hm : m.wf) (hm' : m'.wf) (h : ∀ a, m.read a = m'.read a) : m = m' := by
  have hirrefl : Std.Irrefl fun c d : Host.Cell => c.1 < d.1 := ⟨fun _ => lt_irrefl _⟩
  have hasymm : Std.Asymm fun c d : Host.Cell => c.1 < d.1 := ⟨fun _ _ => lt_asymm⟩
  refine hm.1.eq_of_mem_iff hm'.1 fun c => ?_
  rw [Memory.mem_iff_read hm, Memory.mem_iff_read hm', h]

/-- Settles O17 (`Memory.eq_of_read_eq`). -/
theorem canonicalMemoriesReadingAlikeAreEqual : Obligations.CanonicalMemoriesReadingAlikeAreEqual :=
  fun _ _ hm hm' h => Memory.eq_of_read_eq hm hm' h

theorem hostMemWrite_of_lt {s : State} {a : Nat} (ha : a < 2 ^ s.aw) (v : Byte) :
    hostMemWrite a v s = .next { s with mem := s.mem.write a v } := if_pos ha

theorem hostMemRead_of_lt {s : State} {a : Nat} (ha : a < 2 ^ s.aw) :
    hostMemRead a s = .next { s with returned := s.returned ++ [.mr a (s.mem.read a)] } := if_pos ha

theorem hostMemWrite_of_le {s : State} {a : Nat} (ha : 2 ^ s.aw ≤ a) (v : Byte) : hostMemWrite a v s = .fault .noSuchAddress :=
  if_neg ha.not_gt

theorem hostMemRead_of_le {s : State} {a : Nat} (ha : 2 ^ s.aw ≤ a) : hostMemRead a s = .fault .noSuchAddress :=
  if_neg ha.not_gt

/-- Settles O10: a `BitVec aw` is an address of MEM; the rest is what a canonical memory reads after a write. -/
theorem hostMemoryActions : Obligations.HostMemoryActions := by
  intro s rest hm
  simp only [step_pending_cons]
  refine ⟨fun a v => ⟨s.mem.write a.toNat v, ?_, ?_, ?_⟩, fun a => ?_⟩
  · exact hostMemWrite_of_lt (s := takeAction rest s) a.isLt v
  · exact Memory.read_write_same hm a.toNat v
  · exact fun b hb => Memory.read_write_other s.mem v hb
  · exact hostMemRead_of_lt (s := takeAction rest s) a.isLt

/-- Settles O11 (`hostMemWrite_of_le`, `hostMemRead_of_le`). -/
theorem numbersThatAreNoAddressFault : Obligations.NumbersThatAreNoAddressFault := by
  intro s rest a ha
  simp only [step_pending_cons]
  exact ⟨fun v => hostMemWrite_of_le (s := takeAction rest s) ha v, hostMemRead_of_le (s := takeAction rest s) ha⟩

theorem addr_toNat {aw : Nat} (a : BitVec aw) (k : Nat) : (addr a k).toNat = (a.toNat + k) % 2 ^ aw := by
  rw [addr, BitVec.toNat_add, BitVec.toNat_ofNat, Nat.add_mod_mod]

/-- Settles O12 (`addr_toNat`). -/
theorem bufferAddressesWrap : Obligations.BufferAddressesWrap := fun _ a k => addr_toNat a k

end Sys2Proof.Machine
end

section
/-! PROOFS. The buffer reads of a decode command: which it makes, and that no other byte has an influence (spec/20_memory.md R57). -/

namespace Sys2Proof.Machine

open Sys2Proof.Claims

/-- The bytes a decode can read: the first `min(rem, MAXLEN(W))` of the window are the same in both memories (20_memory.md R57). -/
def windowsAgree {aw : Nat} (W : Nat) (pos : BitVec aw) (rem : Nat) (m m' : Memory) : Prop :=
  ∀ k < min rem (maxLen W), windowByte m' pos k = windowByte m pos k

section
variable {aw W rem : Nat} {pos : BitVec aw} {m m' : Memory} (hagree : windowsAgree W pos rem m m')
include hagree

theorem windowHolds_congr {u n : Nat} (h : windowHolds W m pos rem u n) : windowHolds W m' pos rem u n := by
  obtain ⟨t, hn, ht, hmore, hlast, hexcess, hu⟩ := h
  refine ⟨t, hn, ht, fun k hk => ?_, ?_, ?_, ?_⟩
  · rw [hagree k (by omega)]
    exact hmore k hk
  · rwa [hagree t ht]
  · rwa [hagree t ht]
  · rwa [windowBytes_congr hagree ht]

theorem windowExhausted_congr (h : windowExhausted W m pos rem) : windowExhausted W m' pos rem := by
  obtain ⟨hrem, hmore⟩ := h
  refine ⟨hrem, fun k hk => ?_⟩
  rw [hagree k (by omega)]
  exact hmore k hk

theorem windowOverlong_congr (hM : 1 ≤ maxLen W) (h : windowOverlong W m pos rem) : windowOverlong W m' pos rem := by
  obtain ⟨hrem, hmore, hlast⟩ := h
  refine ⟨hrem, fun k hk => ?_, ?_⟩
  · rw [hagree k (by omega)]
    exact hmore k hk
  · rwa [hagree (maxLen W - 1) (by omega)]

end

/-- A decode command over another memory that agrees on the bytes it can read: the same, but for that memory. -/
theorem decodeCommand_other_memory {W : Nat} (hW : W = 32 ∨ W = 64) (f : BitVec W → BitVec W) {s : State} {m : Memory}
    (hagree : windowsAgree W s.pos s.rem.toNat s.mem m) :
    decodeCommand f { s with mem := m } = { decodeCommand f s with mem := m } := by
  have hM : 1 ≤ maxLen W := by rcases hW with rfl | rfl <;> decide
  rcases decodeCommand_cases hW f s with ⟨u, n, _, hholds, he⟩ | ⟨hexhausted, he⟩ | ⟨hoverlong, he⟩
  · rw [he]
    exact decodeCommand_ok hW f (s := { s with mem := m }) (windowHolds_congr hagree hholds)
  · rw [he]
    exact decodeCommand_exhausted hW f (s := { s with mem := m }) (windowExhausted_congr hagree hexhausted)
  · rw [he]
    exact decodeCommand_overlong hW f (s := { s with mem := m }) (windowOverlong_congr hagree hM hoverlong)

/-- Settles O45: the same window is decoded in both states (`decodeCommand_other_memory`). -/
theorem decodeDependsOnlyOnTheWindow : Obligations.DecodeDependsOnlyOnTheWindow := by
  intro i hi s m hagree
  obtain ⟨f, hf⟩ := exec_decode hi
  refine ⟨decodeCommand f s, (decodeCommand f s).vout, hf s, ?_, fun _ => rfl⟩
  rw [hf, decodeCommand_other_memory (width_cases i) f hagree]

/-- The accesses of a decode command (20_memory.md R57). -/
theorem decodeCommand_trace {W : Nat} (hW : W = 32 ∨ W = 64) (f : BitVec W → BitVec W) (s : State) :
    ∃ k ≤ min s.rem.toNat (maxLen W), (decodeCommand f s).trace = s.trace ++ readsFrom s.pos k := by
  rcases decodeCommand_cases hW f s with ⟨u, _, _, ⟨t, rfl, ht, _⟩, he⟩ | ⟨hexhausted, he⟩ | ⟨hoverlong, he⟩
  · exact ⟨t + 1, ht, by rw [he]; rfl⟩
  · exact ⟨s.rem.toNat, le_min le_rfl hexhausted.1.le, by rw [he]; rfl⟩
  · exact ⟨maxLen W, le_min hoverlong.1 le_rfl, by rw [he]; rfl⟩

/-- Settles O44 (`decodeCommand_trace`, `decodeCommand_mem`). -/
theorem decodeReadsOnlyTheWindow : Obligations.DecodeReadsOnlyTheWindow := by
  intro i hi s
  obtain ⟨f, hf⟩ := exec_decode hi
  obtain ⟨k, hk, htrace⟩ := decodeCommand_trace (width_cases i) f s
  exact ⟨decodeCommand f s, k, hf s, hk, htrace, decodeCommand_mem i f s⟩

end Sys2Proof.Machine
end

section
/-! PROOFS. A pure or an encode command issued twice (spec/20_memory.md R59). -/

namespace Sys2Proof.Machine

open Sys2Proof.Claims

/-- An encode over canonical memories, made twice: the second changes no byte, and with it not the list of bytes (`Memory.eq_of_read_eq`). -/
theorem encodedInto_twice {u : Nat} {s t r : State} (hst : encodedInto u s t) (htr : encodedInto u t r) (ht : t.mem.wf) (hr : r.mem.wf) :
    r = { t with trace := r.trace } := by
  obtain ⟨m, rfl, hin, _⟩ := hst
  obtain ⟨m', rfl, hin', hout'⟩ := htr
  have hreads : ∀ a, m'.read a = m.read a := by
    intro a
    by_cases ha : ∃ i < wireLength u, a = (addr s.dst i).toNat
    · obtain ⟨i, hi, rfl⟩ := ha
      exact (hin' i hi).trans (hin i hi).symm
    · exact hout' a fun i hi h => ha ⟨i, hi, h⟩
  obtain rfl : m' = m := Memory.eq_of_read_eq hr ht hreads
  rfl

theorem packCommand_mem_wf {W : Nat} (hW : 7 ≤ W) (u : BitVec W) {s : State} (hm : s.mem.wf) : (packCommand u s).mem.wf := by
  rw [packCommand_eq hW]
  exact storeBytes_wf _ _ _ _ hm

/-- An encode command made twice changes the record of accesses only. -/
theorem packCommand_twice (i : Instr) (u : BitVec i.width) {s : State} (ha : 4 ≤ s.aw) (hm : s.mem.wf) :
    packCommand u (packCommand u s) = { packCommand u s with trace := (packCommand u (packCommand u s)).trace } := by
  obtain ⟨h7, hM⟩ := width_facts i
  have hM' : maxLen i.width ≤ 16 := by omega
  have hm' : (packCommand u s).mem.wf := packCommand_mem_wf h7 u hm
  exact encodedInto_twice (packCommand_spec h7 hM' u s ha hm) (packCommand_spec h7 hM' u (packCommand u s) ha hm') hm'
    (packCommand_mem_wf h7 u hm')

/-- Settles O34: neither kind of command writes VIN, so both times the result is of the same operand (`exec_unwritten`); a pure command writes
what is there already, and so does an encode command (`packCommand_twice`). -/
theorem encodeTwiceChangesNothingMore : Obligations.EncodeTwiceChangesNothingMore := by
  rintro i (hi | hi) s hlegal hm
  · obtain ⟨g, hg⟩ := exec_pure_operand hi
    exact ⟨_, s.trace, hg s, hg _⟩
  · obtain ⟨g, hg⟩ := exec_encode_operand hi
    exact ⟨_, _, hg s, (hg _).trans (congrArg _ (packCommand_twice i _ hlegal.1 hm))⟩

end Sys2Proof.Machine
end

section
/-! PROOFS. The bytes of a packed value: where they end and how many they are (spec/30_encoding.md R74, R75, R78). -/

namespace Sys2Proof.Machine

/-- A byte before a sequence that is not empty: the sequence must go on after it. -/
theorem wireTerminated_cons (b : Byte) {bs : List Byte} (h : bs ≠ []) : wireTerminated (b :: bs) = (wireMore b && wireTerminated bs) := by
  cases bs with
  | nil => exact absurd rfl h
  | cons => rfl

theorem packedBytes_ne_nil (u : Nat) : packedBytes u ≠ [] :=
  List.ne_nil_of_length_pos ((packedBytes_length u).symm ▸ wireLength_pos u)

/-- `more` is set in every packed byte but the last (30_encoding.md R74). -/
theorem wireTerminated_packedBytes (u : Nat) : wireTerminated (packedBytes u) = true := by
  induction u using Nat.strong_induction_on with
  | _ u ih =>
    rcases Nat.lt_or_ge u 128 with h | h
    · rw [packedBytes_small h, wireTerminated, wireMore_wireByte, Bool.not_false]
    · rw [packedBytes_big h, wireTerminated_cons _ (packedBytes_ne_nil _), wireMore_wireByte, ih (u / 128) (by omega), Bool.and_self]

theorem wireLength_eq_one_iff (u : Nat) : wireLength u = 1 ↔ u < 2 ^ 7 :=
  ⟨fun h => (wireLength_le_iff le_rfl).1 h.le, wireLength_small⟩

/-- `len(u) = k` for a k of 2 and more: k groups of seven bits hold u, k - 1 of them do not (30_encoding.md R78). -/
theorem wireLength_eq_iff (u : Nat) {k : Nat} (hk : 2 ≤ k) : wireLength u = k ↔ 2 ^ (7 * (k - 1)) ≤ u ∧ u < 2 ^ (7 * k) := by
  rw [← Nat.not_lt, ← wireLength_le_iff (by omega : 1 ≤ k - 1), ← wireLength_le_iff (by omega : 1 ≤ k)]
  omega

/-- A value other than 0 reaches its last group. -/
theorem pow_wireLength_le {u : Nat} (hu : u ≠ 0) : 2 ^ (7 * (wireLength u - 1)) ≤ u := by
  rcases Nat.lt_or_ge (wireLength u) 2 with h | h
  · rw [show wireLength u - 1 = 0 by omega]
    exact Nat.one_le_iff_ne_zero.2 hu
  · exact ((wireLength_eq_iff u h).1 rfl).1

/-- The last group of a value other than 0 is not zero: it is all of u from its bit `7(len(u)-1)` on, which `pow_wireLength_le` keeps above 0 and
the length rule below 128. -/
theorem packedByte_last_payload_ne {u : Nat} (hu : u ≠ 0) : wirePayload (packedByte u (wireLength u - 1)) ≠ 0#7 := by
  have hlen := wireLength_pos u
  have hpos : 0 < u / 2 ^ (7 * (wireLength u - 1)) := Nat.div_pos (pow_wireLength_le hu) (by positivity)
  have hlt : u / 2 ^ (7 * (wireLength u - 1)) < 128 := by
    apply Nat.div_lt_of_lt_mul
    rw [show 128 = 2 ^ 7 from rfl, ← pow_add, show 7 * (wireLength u - 1) + 7 = 7 * wireLength u by omega]
    exact (wireLength_le_iff hlen).1 le_rfl
  intro h
  have hgroup := packedByte_payload u (wireLength u - 1)
  rw [h, Nat.mod_eq_of_lt hlt, BitVec.toNat_zero] at hgroup
  omega

/-- Settles O29, a conjunct from each lemma above and from `wireValue_packedBytes`. -/
theorem packedBytesCarryTheValue : Obligations.PackedBytesCarryTheValue := fun u =>
  ⟨wireTerminated_packedBytes u, wireValue_packedBytes u, packedBytes_length u, wireLength_eq_one_iff u, fun _ hk => wireLength_eq_iff u hk,
    packedByte_last_payload_ne⟩

end Sys2Proof.Machine
end

section
/-! PROOFS. Command words (spec/30_encoding.md R70, R76): the decoder reads a command from its own word and from no other. -/

namespace Sys2Proof.Machine

/-- The twelve statements of Laws/PerInstr.lean as one. -/
theorem wellFormed_statement : ∀ i : Instr, Laws.WellFormed.Statement i
  | .zzenc32 => Laws.WellFormed.zzenc32
  | .zzenc64 => Laws.WellFormed.zzenc64
  | .zzdec32 => Laws.WellFormed.zzdec32
  | .zzdec64 => Laws.WellFormed.zzdec64
  | .vpack32 => Laws.WellFormed.vpack32
  | .vpack64 => Laws.WellFormed.vpack64
  | .vunpack32 => Laws.WellFormed.vunpack32
  | .vunpack64 => Laws.WellFormed.vunpack64
  | .putzint => Laws.WellFormed.putzint
  | .putzlong => Laws.WellFormed.putzlong
  | .readzint => Laws.WellFormed.readzint
  | .readzlong => Laws.WellFormed.readzlong

theorem instr_wf (i : Instr) : i.wf := (wellFormed_statement i).1

theorem decode_encode (i : Instr) : decode (encode i) = .ok i := by
  obtain ⟨_, _, _, _, hdecode⟩ := wellFormed_statement i
  exact hdecode

/-- The words of the commands lie from 2 to 13 (30_encoding.md R70). -/
theorem encode_range (i : Instr) : 2 ≤ (encode i).toNat ∧ (encode i).toNat ≤ 13 := by
  obtain ⟨_, hlow, hhigh, _⟩ := wellFormed_statement i
  exact ⟨hlow, hhigh⟩

/-- A word is its three fields (30_encoding.md R70). -/
theorem wordOf_fieldsOf (c : CommandWord) : wordOf (fieldsOf c) = c := by
  revert c; decide

/-- The function and the width bit that select a command are those of its row. -/
theorem decodeFunction_fields {fn : BitVec 3} {w : BitVec 1} {i : Instr} (h : decodeFunction fn w = .ok i) : i.fields = ⟨0, fn, w⟩ := by
  cases i <;> revert fn w <;> decide

/-- The fields of a word that decodes are those of the command's row. -/
theorem fields_eq_of_decode {c : CommandWord} {i : Instr} (h : decode c = .ok i) : i.fields = fieldsOf c := by
  simp only [decode] at h
  split at h
  · next hzero => exact (decodeFunction_fields h).trans (congrArg (CommandFields.mk · _ _) hzero.symm)
  · cases h

theorem encode_of_decode {c : CommandWord} {i : Instr} (h : decode c = .ok i) : encode i = c := by
  rw [encode, fields_eq_of_decode h, wordOf_fieldsOf]

theorem decode_eq_ok_iff (c : CommandWord) (i : Instr) : decode c = .ok i ↔ encode i = c :=
  ⟨encode_of_decode, fun h => h ▸ decode_encode i⟩

theorem mem_instr_all (i : Instr) : i ∈ Instr.all := by
  cases i <;> decide

/-- Settles O1: the table lists every command once, with its own word, and only that word decodes to it (`decode_eq_ok_iff`). -/
theorem commandTableIsDecodedExactly : Obligations.CommandTableIsDecodedExactly := by
  intro c i
  show _ ↔ (c, i) ∈ Instr.all.map fun j => (encode j, j)
  rw [decode_eq_ok_iff, List.mem_map]
  constructor
  · intro h
    exact ⟨i, mem_instr_all i, by rw [h]⟩
  · rintro ⟨j, _, hj⟩
    cases hj
    rfl

/-- Settles O2 (`instr_wf`, `decode_encode`, `encode_of_decode`). -/
theorem decodeAndEncodeAgree : Obligations.DecodeAndEncodeAgree :=
  ⟨fun i => ⟨instr_wf i, decode_encode i⟩, fun _ _ => encode_of_decode⟩

/-- A reserved word is an illegal command: no command's word is outside 2 to 13 (30_encoding.md R76). -/
theorem issueCommand_reserved {c : CommandWord} (h : c.toNat < 2 ∨ 13 < c.toNat) (s : State) : issueCommand c s = .next (illegalCommand s) := by
  rcases issueCommand_cases c s with ⟨i, hi, _⟩ | hillegal
  · have hrange := encode_range i
    rw [encode_of_decode hi] at hrange
    omega
  · exact hillegal

/-- "244 words in all" (30_encoding.md R76). -/
theorem reserved_words_length : ((List.range 256).filter fun n => decide (n < 2 ∨ 13 < n)).length = 244 := by
  decide +kernel

/-- Settles O3: an illegal command writes ST and nothing else (`issueCommand_reserved`). -/
theorem reservedWordWritesIllegalOnly : Obligations.ReservedWordWritesIllegalOnly :=
  ⟨reserved_words_length, fun _ _ _ h => issueCommand_reserved h _⟩

theorem perform_cmd_of_decode {c : CommandWord} {i : Instr} (h : decode c = .ok i) (s : State) : perform (.cmd c) s = exec i s := by
  rw [perform, issueCommand, h]

/-- Settles O4: the step performs the action (`step_action`), to issue the word (`perform_cmd_of_decode`). -/
theorem stepRunsTheIssuedCommand : Obligations.StepRunsTheIssuedCommand := fun s _ _ rest hp hd =>
  (step_action s _ rest hp).trans (perform_cmd_of_decode hd _)

end Sys2Proof.Machine
end

section
/-! PROOFS. A call of `PutZInt` (spec/30_encoding.md R79). -/

namespace Sys2Proof.Machine

/-- A call of an encode function from the command's own outcome `e`: the two writes, the command, and CNT returned. -/
theorem run_putCall {i : Instr} {s e : State} {x : BitVec 64} {d : BitVec s.aw} (hp : s.pending = putCall i x.toNat d.toNat)
    (he : exec i { s with vin := x, dst := d, pending := [.rd 3] } = .next e) :
    Host.Core.run core 4 s = .next { e with pending := [], returned := e.returned ++ [.rd 3 e.cnt.toNat] } := by
  obtain ⟨_, _, hpending⟩ := exec_params he
  calc Host.Core.run core 4 s
    _ = Host.Core.run core 3 { s with vin := x, pending := [.wr 2 d.toNat, .cmd (encode i), .rd 3] } :=
      run_action 3 _ _ hp (perform_wr_vin x _)
    _ = Host.Core.run core 2 { s with vin := x, dst := d, pending := [.cmd (encode i), .rd 3] } :=
      run_action 2 _ _ rfl (perform_wr_dst { s with vin := x, pending := [.cmd (encode i), .rd 3] } d)
    _ = Host.Core.run core 1 e := run_action 1 _ _ rfl ((perform_cmd_of_decode (decode_encode i) _).trans he)
    _ = _ := run_action 0 _ _ hpending rfl

/-- Settles O59: PUTZINT leaves in CNT the length of what it packs (`packCommand_cnt`), the code of the signed operand (`zigzagEncode_toNat`). -/
theorem putZIntCallReturnsTheByteCount : Obligations.PutZIntCallReturnsTheByteCount := by
  intro s x d hp
  have hcnt := packCommand_cnt (.inl rfl) (zigzagEncode (x.extractLsb' 0 32)) { s with vin := x, dst := d, pending := [.rd 3] }
  rw [zigzagEncode_toNat (by decide)] at hcnt
  exact ⟨_, run_putCall hp rfl, congrArg (fun n => s.returned ++ [.rd 3 n]) hcnt⟩

end Sys2Proof.Machine
end

section
/-! PROOFS. Zigzag for every width: its bits, its integers, its inverses and its laws (spec/40_zigzag.md R90, R91, R96). -/

namespace Sys2Proof.Machine

open Sys2Proof.Claims

theorem foldSigned_of_nonneg {z : Int} (hz : 0 ≤ z) : (foldSigned z : Int) = 2 * z := by
  rw [foldSigned, if_pos hz]
  omega

theorem foldSigned_of_neg {z : Int} (hz : z < 0) : (foldSigned z : Int) = -2 * z - 1 := by
  rw [foldSigned, if_neg (by omega)]
  omega

theorem unfoldCode_of_even {u : Nat} (hu : u % 2 = 0) : unfoldCode u = (u / 2 : Nat) := if_pos hu

theorem unfoldCode_of_odd {u : Nat} (hu : u % 2 = 1) : unfoldCode u = -((u + 1) / 2 : Nat) := if_neg (by omega)

/-- The bits of a code: each value bit one place up, and every bit inverted when the value is negative (40_zigzag.md R90). -/
theorem getLsbD_zigzagEncode {W j : Nat} (n : BitVec W) (hj : j < W) :
    (zigzagEncode n).getLsbD j = ((!decide (j < 1) && n.getLsbD (j - 1)) ^^ n.msb) := by
  rw [zigzagEncode_sign]
  cases n.msb
  · simp only [Bool.false_eq_true, if_false, BitVec.getLsbD_shiftLeft, hj, decide_true, Bool.true_and, Bool.xor_false]
  · simp only [if_true, BitVec.getLsbD_not, BitVec.getLsbD_shiftLeft, hj, decide_true, Bool.true_and, Bool.xor_true]

/-- The bits of the value of a code: each code bit one place down, and every bit inverted when the code is odd (40_zigzag.md R91). -/
theorem getLsbD_zigzagDecode {W j : Nat} (u : BitVec W) (hj : j < W) :
    (zigzagDecode u).getLsbD j = (u.getLsbD (j + 1) ^^ u.getLsbD 0) := by
  rw [zigzagDecode_parity]
  cases u.getLsbD 0 <;> simp [hj, Nat.add_comm 1]

/-- Unfolding, then folding. -/
theorem zigzagEncode_zigzagDecode {W : Nat} (hW : 0 < W) (u : BitVec W) : zigzagEncode (zigzagDecode u) = u := by
  apply BitVec.eq_of_toNat_eq
  rw [zigzagEncode_toNat hW, zigzagDecode_toInt hW, fold_unfold]

/-- The code of a signed integer of the W-bit range. -/
theorem zigzagEncode_ofInt_toNat {W : Nat} (hW : 0 < W) {z : Int} (hlow : -2 ^ (W - 1) ≤ z) (hhigh : z < 2 ^ (W - 1)) :
    (zigzagEncode (BitVec.ofInt W z)).toNat = foldSigned z := by
  rw [zigzagEncode_toNat hW, BitVec.toInt_ofInt_eq_self hW hlow hhigh]

/-- The codes of k and of -k-1 are the even and the odd number of a pair (40_zigzag.md R96, law 2). -/
theorem zigzagEncode_ofInt_pair {W : Nat} (hW : 0 < W) {k : Nat} (hk : k < 2 ^ (W - 1)) :
    (zigzagEncode (BitVec.ofInt W k)).toNat = 2 * k ∧ (zigzagEncode (BitVec.ofInt W (-(k : Int) - 1))).toNat = 2 * k + 1 := by
  have hk' : (k : Int) < 2 ^ (W - 1) := by exact_mod_cast hk
  have heven := foldSigned_of_nonneg (z := k) (by omega)
  have hodd := foldSigned_of_neg (z := -(k : Int) - 1) (by omega)
  rw [zigzagEncode_ofInt_toNat hW (by omega) hk', zigzagEncode_ofInt_toNat hW (by omega) (by omega)]
  omega

/-- The codes of the two extremes are the pair of the largest k (40_zigzag.md R96, law 3). -/
theorem zigzagEncode_extremes {W : Nat} (hW : 0 < W) :
    (zigzagEncode (BitVec.ofInt W (2 ^ (W - 1) - 1))).toNat = 2 ^ W - 2 ∧ (zigzagEncode (BitVec.ofInt W (-2 ^ (W - 1)))).toNat = 2 ^ W - 1 := by
  have hone : 1 ≤ 2 ^ (W - 1) := Nat.one_le_two_pow
  have hdouble : 2 ^ W = 2 * 2 ^ (W - 1) := by rw [← pow_succ', Nat.sub_add_cancel hW]
  have hmax : ((2 ^ (W - 1) - 1 : Nat) : Int) = 2 ^ (W - 1) - 1 := by push_cast [hone]; rfl
  obtain ⟨heven, hodd⟩ := zigzagEncode_ofInt_pair hW (k := 2 ^ (W - 1) - 1) (by omega)
  rw [hmax] at heven hodd
  rw [show -((2 : Int) ^ (W - 1) - 1) - 1 = -2 ^ (W - 1) by ring] at hodd
  omega

/-- NOT swaps the two codes of a pair, bit by bit: it inverts a bit and the sign alike, and bit 0 is the sign alone (40_zigzag.md R96, law 4). -/
theorem zigzagEncode_not {W : Nat} (hW : 0 < W) (n : BitVec W) : zigzagEncode (~~~n) = zigzagEncode n ^^^ 1#W := by
  apply BitVec.eq_of_getLsbD_eq
  intro j hj
  rw [BitVec.getLsbD_xor, BitVec.getLsbD_one, getLsbD_zigzagEncode _ hj, getLsbD_zigzagEncode _ hj, BitVec.msb_not]
  rcases Nat.eq_zero_or_pos j with rfl | hpos
  · simp [hW]
  · have hbit : (~~~n).getLsbD (j - 1) = !n.getLsbD (j - 1) := by
      rw [BitVec.getLsbD_not, decide_eq_true (by omega), Bool.true_and]
    rw [hbit]
    simp [hpos.ne', hW]

/-- A code below 2^k is that of a k-bit signed integer (40_zigzag.md R96, law 5). -/
theorem foldSigned_lt_two_pow {z : Int} {k : Nat} (hk : 1 ≤ k) : foldSigned z < 2 ^ k ↔ -2 ^ (k - 1) ≤ z ∧ z < 2 ^ (k - 1) := by
  rw [← foldSigned_lt, Nat.sub_add_cancel hk]

/-- Settles O22: the formulas are the definitions, the bits are `getLsbD_zigzagEncode` and `getLsbD_zigzagDecode`, the integers
`zigzagEncode_toNat` and `zigzagDecode_toInt` with the sign or the parity told apart. -/
theorem zigzagBitsAndIntegers : Obligations.ZigzagBitsAndIntegers := by
  intro W hW x
  have h0 : 0 < W := by omega
  refine ⟨rfl, ?_, fun j hj hjW => ?_, fun hx => ?_, fun hx => ?_, rfl, ?_, fun j hj => ?_, fun hx => ?_, fun hx => ?_,
    zigzagDecode_zigzagEncode h0 x, zigzagEncode_zigzagDecode h0 x⟩
  · simp [getLsbD_zigzagEncode x h0, BitVec.msb_eq_getLsbD_last]
  · simp [getLsbD_zigzagEncode x (show j < W by omega), BitVec.msb_eq_getLsbD_last, show j ≠ 0 by omega]
  · rw [zigzagEncode_toNat h0, foldSigned_of_nonneg hx]
  · rw [zigzagEncode_toNat h0, foldSigned_of_neg hx]
  · rw [getLsbD_zigzagDecode x (by omega), Nat.sub_add_cancel h0, BitVec.getLsbD_of_ge x W le_rfl, Bool.false_xor]
  · exact getLsbD_zigzagDecode x (by omega)
  · rw [zigzagDecode_toInt h0, unfoldCode_of_even hx]
  · rw [zigzagDecode_toInt h0, unfoldCode_of_odd hx]

/-- Settles O23, a law from each lemma above; law 6 from what a pure command writes (`exec_pure`). -/
theorem zigzagLaws : Obligations.ZigzagLaws := by
  refine ⟨fun W hW => ?_, fun i hi s => ?_⟩
  · have h0 : 0 < W := by omega
    refine ⟨fun x => ⟨zigzagDecode_zigzagEncode h0 x, zigzagEncode_zigzagDecode h0 x⟩, fun _ hk => zigzagEncode_ofInt_pair h0 hk,
      zigzagEncode_extremes h0, zigzagEncode_not h0, fun x k hk _ => ?_⟩
    rw [zigzagEncode_toNat h0, foldSigned_lt_two_pow hk]
  · obtain ⟨v, hv⟩ := exec_pure hi s
    exact ⟨_, hv, rfl⟩

end Sys2Proof.Machine
end

section
/-! PROOFS. The four zigzag commands (spec/40_zigzag.md R92 to R95): a pure command writes its result to VOUT zero-extended, whether it is signed
or not (spec/10_state.md R22). -/

namespace Sys2Proof.Machine

@[simp] theorem result_toNat_32 (v : BitVec 32) : (result v).toNat = v.toNat := BitVec.toNat_setWidth_of_le (by decide)

@[simp] theorem result_low_32 (v : BitVec 32) : (result v).extractLsb' 0 32 = v := by
  rw [result, BitVec.extractLsb'_setWidth_of_le (by decide), BitVec.extractLsb'_eq_self]

@[simp] theorem result_high_32 (v : BitVec 32) : (result v).extractLsb' 32 32 = 0#32 := by
  apply BitVec.eq_of_getLsbD_eq
  intro i hi
  rw [BitVec.getLsbD_extractLsb', result, BitVec.getLsbD_setWidth, BitVec.getLsbD_of_ge v _ (by omega)]
  simp only [BitVec.getLsbD_zero, Bool.and_false]

@[simp] theorem result_64 (v : BitVec 64) : result v = v := BitVec.setWidth_eq v

/-- Settles O18: VOUT is the code as a number (`zigzagEncode_toNat`), which zero extension keeps. -/
theorem zzenc32FoldsTheLowHalf : Obligations.Zzenc32FoldsTheLowHalf := by
  refine ⟨decode_encode .zzenc32, fun s => ⟨result (zigzagEncode (operand 32 s)), rfl, ?_⟩⟩
  rw [result_toNat_32]
  exact zigzagEncode_toNat (by decide) _

/-- Settles O19 (`zigzagEncode_toNat`): the operand is all of VIN and the result all of VOUT. -/
theorem zzenc64FoldsTheValue : Obligations.Zzenc64FoldsTheValue := by
  refine ⟨decode_encode .zzenc64, fun s => ⟨result (zigzagEncode (operand 64 s)), rfl, ?_⟩⟩
  rw [result_64, operand_64]
  exact zigzagEncode_toNat (by decide) _

/-- Settles O20: the low half of VOUT is the signed integer of the code (`zigzagDecode_toInt`), the upper half zeros (`result_high_32`). -/
theorem zzdec32UnfoldsTheLowHalf : Obligations.Zzdec32UnfoldsTheLowHalf := by
  refine ⟨decode_encode .zzdec32, fun s => ⟨result (zigzagDecode (operand 32 s)), rfl, ?_, result_high_32 _⟩⟩
  rw [result_low_32]
  exact zigzagDecode_toInt (by decide) _

/-- Settles O21 (`zigzagDecode_toInt`): the operand is all of VIN and the result all of VOUT. -/
theorem zzdec64UnfoldsTheValue : Obligations.Zzdec64UnfoldsTheValue := by
  refine ⟨decode_encode .zzdec64, fun s => ⟨result (zigzagDecode (operand 64 s)), rfl, ?_⟩⟩
  rw [result_64, operand_64]
  exact zigzagDecode_toInt (by decide) _

end Sys2Proof.Machine
end

section
/-! PROOFS. The encoded length of a signed value (spec/40_zigzag.md R96 law 5, spec/30_encoding.md R78). -/

namespace Sys2Proof.Machine

open Sys2Proof.Claims

/-- A code of at most k bytes is that of a 7k-bit signed integer. -/
theorem wireLength_foldSigned_le_iff {z : Int} {k : Nat} (hk : 1 ≤ k) :
    wireLength (foldSigned z) ≤ k ↔ -2 ^ (7 * k - 1) ≤ z ∧ z < 2 ^ (7 * k - 1) := by
  rw [wireLength_le_iff hk, foldSigned_lt_two_pow (by omega)]

/-- CNT after an encode command of a signed value: the length of its code. -/
theorem packCommand_zigzagEncode_cnt {W : Nat} (hW : W = 32 ∨ W = 64) (n : BitVec W) (s : State) :
    (packCommand (zigzagEncode n) s).cnt.toNat = wireLength (foldSigned n.toInt) := by
  rw [packCommand_cnt hW, zigzagEncode_toNat (by omega)]

theorem wireLength_foldSigned_le_maxLen {W : Nat} (hW : 7 ≤ W) (n : BitVec W) : wireLength (foldSigned n.toInt) ≤ maxLen W := by
  rw [← zigzagEncode_toNat (by omega)]
  exact wireLength_le_maxLen hW _

/-- Settles O32: CNT is the length of the code (`packCommand_zigzagEncode_cnt`), bounded by MAXLEN(W) and, at k bytes, by the range of
`wireLength_foldSigned_le_iff`. -/
theorem encodedLengthBySignedRange : Obligations.EncodedLengthBySignedRange := by
  refine ⟨fun s => ⟨packCommand (zigzagEncode (operand 32 s)) s, rfl, ?_⟩, fun s => ⟨packCommand (zigzagEncode (operand 64 s)) s, rfl, ?_⟩⟩
  · rw [packCommand_zigzagEncode_cnt (.inl rfl)]
    exact ⟨wireLength_pos _, wireLength_foldSigned_le_maxLen (by decide) _, fun _ hk _ => wireLength_foldSigned_le_iff hk⟩
  · rw [packCommand_zigzagEncode_cnt (.inr rfl), operand_64]
    exact ⟨wireLength_pos _, wireLength_foldSigned_le_maxLen (by decide) _, fun _ hk _ => wireLength_foldSigned_le_iff hk⟩

end Sys2Proof.Machine
end

section
/-! PROOFS. The packer and its two commands (spec/41_varint_pack.md R103 to R105): how many bytes a packed value takes, that the two widths agree, and
what VPACK32 and VPACK64 store. -/

namespace Sys2Proof.Machine

/-- The greatest length is reached exactly when one byte less is not enough (`wireLength_le_iff` at MAXLEN(W) - 1). -/
theorem wireLength_eq_maxLen_iff {W : Nat} (hW : 8 ≤ W) (u : BitVec W) :
    wireLength u.toNat = maxLen W ↔ 2 ^ (7 * (maxLen W - 1)) ≤ u.toNat := by
  have hM : 2 ≤ maxLen W := by unfold maxLen; omega
  have hmax := wireLength_le_maxLen (by omega) u
  rw [← not_lt, ← wireLength_le_iff (by omega)]
  omega

/-- Settles O30: the packer's count is the length of the value (`pack_eq`); the two bounds are `wireLength_pos` and `wireLength_le_maxLen`, the
threshold `wireLength_eq_maxLen_iff`, and minimality `wireLength_minimal`. -/
theorem packIsBoundedAndMinimal : Obligations.PackIsBoundedAndMinimal := by
  intro W hW aw u d p
  rw [pack_eq (by omega)]
  refine ⟨wireLength_pos _, wireLength_le_maxLen (by omega) u, wireLength_eq_maxLen_iff (by omega) u, fun bs hterm hval => ?_⟩
  rw [← hval]
  exact wireLength_minimal bs hterm

/-- Settles O31: at either width the outcome is that of the value as a number (`pack_eq`), which zero extension keeps. -/
theorem packersOfBothWidthsAgree : Obligations.PackersOfBothWidthsAgree := by
  intro aw u d p
  rw [pack_eq (by decide), pack_eq (by decide), BitVec.toNat_setWidth_of_le (by decide)]

/-- Settles O24: the command packs the low half of VIN, at most 5 bytes (`packCommand_spec`). -/
theorem vpack32StoresTheVarint : Obligations.Vpack32StoresTheVarint :=
  ⟨decode_encode .vpack32, fun s hlegal hm => ⟨_, rfl, packCommand_spec (by decide) (by decide) (operand 32 s) s hlegal.1 hm⟩⟩

/-- Settles O25: the operand is all of VIN (`operand_64`), packed in at most 10 bytes (`packCommand_spec`). -/
theorem vpack64StoresTheVarint : Obligations.Vpack64StoresTheVarint := by
  refine ⟨decode_encode .vpack64, fun s hlegal hm => ⟨packCommand (operand 64 s) s, rfl, ?_⟩⟩
  rw [← operand_64 s]
  exact packCommand_spec (by decide) (by decide) (operand 64 s) s hlegal.1 hm

end Sys2Proof.Machine
end

section
/-! PROOFS. The answers of `unpack_W`, each with the windows that get it, and the rule's table of outcomes (spec/42_varint_unpack.md R112 to R116). -/

namespace Sys2Proof.Machine

open Sys2Proof.Claims

theorem windowHolds_bounds {aw W : Nat} {m : Memory} {pos : BitVec aw} {rem u n : Nat} (h : windowHolds W m pos rem u n) :
    1 ≤ n ∧ n ≤ min rem (maxLen W) := by
  obtain ⟨t, rfl, ht, _⟩ := h
  exact ⟨Nat.succ_pos t, ht⟩

section
variable {aw lw W : Nat} (hW : W = 32 ∨ W = 64) {pos : BitVec aw} {rem : BitVec lw} {p : Port}
include hW

theorem maxLen_pos : 0 < maxLen W := by
  rcases hW with rfl | rfl <;> decide

/-- A window that holds a W-bit value is unpacked to that value (42_varint_unpack.md R112). -/
theorem unpack_eq_ok {u : BitVec W} {n : Nat} (h : windowHolds W p.mem pos rem.toNat u.toNat n) :
    unpack W pos rem p = (.ok u n, { p with trace := p.trace ++ readsFrom pos n }) := by
  obtain ⟨v, hv, he⟩ := unpack_ok hW h
  rwa [BitVec.eq_of_toNat_eq hv] at he

/-- What the window is like, from the answer got (42_varint_unpack.md R116). -/
theorem unpack_answer_of_eq {a : Unpacked W} (h : (unpack W pos rem p).1 = a) : unpackAnswer W pos rem p (a, (unpack W pos rem p).2) := by
  subst h
  exact unpack_answer hW pos rem p

theorem unpack_ok_iff {u : BitVec W} {n : Nat} : (unpack W pos rem p).1 = .ok u n ↔ windowHolds W p.mem pos rem.toNat u.toNat n :=
  ⟨fun h => (unpack_answer_of_eq hW h).1, fun h => congrArg Prod.fst (unpack_eq_ok hW h)⟩

theorem unpack_exhausted_iff : (unpack W pos rem p).1 = .fail .exhausted ↔ windowExhausted W p.mem pos rem.toNat :=
  ⟨fun h => (unpack_answer_of_eq hW h).1, fun h => congrArg Prod.fst (unpack_exhausted hW h)⟩

theorem unpack_overlong_iff : (unpack W pos rem p).1 = .fail .overlong ↔ windowOverlong W p.mem pos rem.toNat :=
  ⟨fun h => (unpack_answer_of_eq hW h).1, fun h => congrArg Prod.fst (unpack_overlong hW h)⟩

/-- On the empty window nothing is read (42_varint_unpack.md R114). -/
theorem unpack_empty (h : rem.toNat = 0) : unpack W pos rem p = (.fail .exhausted, p) := by
  have hempty : windowExhausted W p.mem pos rem.toNat := by
    rw [h]
    exact ⟨maxLen_pos hW, fun _ hk => absurd hk (Nat.not_lt_zero _)⟩
  rw [unpack_exhausted hW hempty, h]
  simp [readsFrom]

/-- The first byte with bit 7 clear ends the value, in the window and without an excess bit (42_varint_unpack.md R116, rows 1 and 2). -/
theorem unpack_ok_of_first_clear {t : Nat} (ht : t + 1 ≤ min rem.toNat (maxLen W)) (hmore : ∀ j < t, wireMore (windowByte p.mem pos j) = true)
    (hlast : wireMore (windowByte p.mem pos t) = false) (hexcess : t + 1 = maxLen W → ¬ excessPayload W (windowByte p.mem pos t)) :
    ∃ u, (unpack W pos rem p).1 = .ok u (t + 1) := by
  obtain ⟨u, _, he⟩ := unpack_ok hW (p := p) ⟨t, rfl, ht, hmore, hlast, hexcess, rfl⟩
  exact ⟨u, congrArg Prod.fst he⟩

end

/-- Settles O35 (`unpack_ok_iff`, `windowHolds_bounds`, `unpack_eq_ok`, `windowHolds_lt`). -/
theorem unpackSucceedsExactlyWhen : Obligations.UnpackSucceedsExactlyWhen := by
  intro W hW aw lw pos rem p u n
  refine ⟨unpack_ok_iff hW, fun h => ?_, fun _ _ h => windowHolds_lt hW h⟩
  obtain ⟨hpos, hle⟩ := windowHolds_bounds h
  exact ⟨hpos, hle, congrArg Prod.snd (unpack_eq_ok hW h)⟩

/-- Settles O36 (`unpack_exhausted_iff`, `unpack_exhausted`, `unpack_empty`). -/
theorem unpackExhaustedExactlyWhen : Obligations.UnpackExhaustedExactlyWhen := fun _ hW _ _ _ _ _ =>
  ⟨unpack_exhausted_iff hW, fun h => congrArg Prod.snd (unpack_exhausted hW h), fun h => Prod.ext_iff.1 (unpack_empty hW h)⟩

/-- Settles O37 (`unpack_overlong_iff`, `unpack_overlong`); the code of OVERLONG is read off ST. -/
theorem unpackOverlongExactlyWhen : Obligations.UnpackOverlongExactlyWhen := fun _ hW _ _ _ _ _ =>
  ⟨unpack_overlong_iff hW, fun h => congrArg Prod.snd (unpack_overlong hW h), by decide⟩

/-- Settles O38: a clear bit 7 ends the value (`unpack_ok_of_first_clear`) unless the byte is the last that may be and has an excess bit; with
none clear the length of the window decides which failure it is. -/
theorem unpackOutcomeTable : Obligations.UnpackOutcomeTable := by
  intro W hW aw lw pos rem p
  have hM := maxLen_pos hW
  have hsucc : maxLen W - 1 + 1 = maxLen W := Nat.sub_add_cancel hM
  refine ⟨fun t ht htrem hmore hlast => ?_, fun hrem hmore hlast => ⟨fun hexcess => ?_, fun hexcess => ?_⟩, fun hmore => ⟨fun hrem => ?_, fun hrem => ?_⟩⟩
  · exact unpack_ok_of_first_clear hW (by omega) hmore hlast fun h => absurd h (by omega)
  · have hok := unpack_ok_of_first_clear hW (rem := rem) (by omega) hmore hlast fun _ => hexcess
    rwa [hsucc] at hok
  · exact (unpack_overlong_iff hW).2 ⟨hrem, hmore, .inr hexcess⟩
  · rw [min_eq_right hrem] at hmore
    exact (unpack_overlong_iff hW).2 ⟨hrem, fun k hk => hmore k (by omega), .inl (hmore _ (by omega))⟩
  · rw [min_eq_left hrem.le] at hmore
    exact (unpack_exhausted_iff hW).2 ⟨hrem, hmore⟩

end Sys2Proof.Machine
end

section
/-! PROOFS. VUNPACK32 and VUNPACK64 (spec/42_varint_unpack.md R117, R118), and how a decode command fails (spec/60_exceptions.md R153). -/

namespace Sys2Proof.Machine

open Sys2Proof.Claims

theorem exec_decode_exhausted {i : Instr} (hi : i.isDecode = true) {s : State} (h : windowExhausted i.width s.mem s.pos s.rem.toNat) :
    ∃ v, exec i s = .next (failedFrom s v 0b010#3 s.rem.toNat) := by
  obtain ⟨f, hf⟩ := exec_decode hi
  exact ⟨_, (hf s).trans (congrArg _ (decodeCommand_exhausted (width_cases i) f h))⟩

theorem exec_decode_overlong {i : Instr} (hi : i.isDecode = true) {s : State} (h : windowOverlong i.width s.mem s.pos s.rem.toNat) :
    ∃ v, exec i s = .next (failedFrom s v 0b100#3 (maxLen i.width)) := by
  obtain ⟨f, hf⟩ := exec_decode hi
  exact ⟨_, (hf s).trans (congrArg _ (decodeCommand_overlong (width_cases i) f h))⟩

/-- A decode that takes the value as it is leaves it in VOUT: it fits the width (`windowHolds_lt`), so zero extension keeps it. -/
theorem decodeCommand_id_ok {W : Nat} (hW : W = 32 ∨ W = 64) {s : State} {u n : Nat} (h : windowHolds W s.mem s.pos s.rem.toNat u n) :
    decodeCommand (W := W) id s = decodedFrom s (BitVec.ofNat 64 u) n := by
  rw [decodeCommand_ok hW id h, id, BitVec.setWidth_ofNat_of_le_of_lt (by omega) (windowHolds_lt hW h)]

/-- Settles O39 (`decodeCommand_id_ok`, `exec_decode_exhausted`, `exec_decode_overlong`). -/
theorem vunpack32Decodes : Obligations.Vunpack32Decodes :=
  ⟨decode_encode .vunpack32, fun _ => ⟨fun _ _ h => congrArg Host.Outcome.next (decodeCommand_id_ok (.inl rfl) h),
    exec_decode_exhausted (i := .vunpack32) rfl, exec_decode_overlong (i := .vunpack32) rfl⟩⟩

/-- Settles O40 (`decodeCommand_id_ok`, `exec_decode_exhausted`, `exec_decode_overlong`). -/
theorem vunpack64Decodes : Obligations.Vunpack64Decodes :=
  ⟨decode_encode .vunpack64, fun _ => ⟨fun _ _ h => congrArg Host.Outcome.next (decodeCommand_id_ok (.inr rfl) h),
    exec_decode_exhausted (i := .vunpack64) rfl, exec_decode_overlong (i := .vunpack64) rfl⟩⟩

end Sys2Proof.Machine
end

section
/-! PROOFS. Packed bytes, read back by `unpack_W` (spec/42_varint_unpack.md R119). -/

namespace Sys2Proof.Machine

open Sys2Proof.Claims

theorem pack_length {W aw : Nat} (hW : 7 ≤ W) (u : BitVec W) (d : BitVec aw) (p : Port) : (pack u d p).1 = wireLength u.toNat := by
  rw [pack_eq hW]

/-- The bytes of the packed value u stand at d. -/
def packedAt {aw : Nat} (u : Nat) (m : Memory) (d : BitVec aw) : Prop := ∀ i < wireLength u, windowByte m d i = packedByte u i

/-- What the packer wrote still stands in any later memory in which the bytes written read the same. -/
theorem packedAt_of_unchanged {W aw : Nat} (hW : W = 32 ∨ W = 64) {u : BitVec W} {d : BitVec aw} {p : Port} {m : Memory} (ha : 4 ≤ aw)
    (hm : p.mem.wf) (h : ∀ i < (pack u d p).1, windowByte m d i = windowByte (pack u d p).2.mem d i) : packedAt u.toNat m d := by
  have hM : maxLen W ≤ 16 := by rcases hW with rfl | rfl <;> decide
  intro i hi
  rw [h i (by rwa [pack_length (by omega)]), pack_windowByte (by omega) hM u d p ha hm i hi]

section
variable {aw lw W n : Nat} {d : BitVec aw} {rem : BitVec lw} {q : Port}

/-- Packed bytes are unpacked at any width the value fits, whatever the width it was packed at. -/
theorem unpack_packed (hW : W = 32 ∨ W = 64) {v : BitVec W} (hb : packedAt n q.mem d) (hv : v.toNat = n) (hr : wireLength n ≤ rem.toNat) :
    (unpack W d rem q).1 = .ok v (wireLength n) := by
  subst hv
  exact (unpack_ok_iff hW).2 (windowHolds_of_packed hW v.isLt hb hr)

/-- Truncation is always detected (42_varint_unpack.md R119). -/
theorem unpack_packed_truncated (hW : W = 32 ∨ W = 64) {u : BitVec W} (hb : packedAt u.toNat q.mem d) (hr : rem.toNat < wireLength u.toNat) :
    (unpack W d rem q).1 = .fail .exhausted :=
  (unpack_exhausted_iff hW).2 (windowExhausted_of_packed (wireLength_le_maxLen (by omega) u) hb hr)

theorem unpack_packed_too_wide (hb : packedAt n q.mem d) (hn : 2 ^ 32 ≤ n) (hr : wireLength n ≤ rem.toNat) :
    (unpack 32 d rem q).1 = .fail .overlong :=
  (unpack_overlong_iff (.inl rfl)).2 (windowOverlong_of_packed hn hb hr)

end

/-- Settles O55: the bytes still stand (`packedAt_of_unchanged`); both widths read them as the same number, if it fits. -/
theorem packedBytesUnpack : Obligations.PackedBytesUnpack := by
  intro aw lw d rem p q ha hm
  refine ⟨fun u hq => ?_, fun u hq => ?_⟩
  · have hb := packedAt_of_unchanged (.inl rfl) ha hm hq
    rw [pack_length (by decide)]
    refine ⟨fun hr => ⟨unpack_packed (.inl rfl) hb rfl hr, unpack_packed (.inr rfl) hb ?_ hr⟩, unpack_packed_truncated (.inl rfl) hb⟩
    exact BitVec.toNat_setWidth_of_le (by decide)
  · have hb := packedAt_of_unchanged (.inr rfl) ha hm hq
    rw [pack_length (by decide)]
    refine ⟨fun hr => ⟨unpack_packed (.inr rfl) hb rfl hr, fun hu => unpack_packed (.inl rfl) hb ?_ hr,
      fun hu => unpack_packed_too_wide hb hu hr⟩, unpack_packed_truncated (.inr rfl) hb⟩
    rw [BitVec.toNat_setWidth, Nat.mod_eq_of_lt hu]

end Sys2Proof.Machine
end

section
/-! PROOFS. The cursor along a command: where the window ends, and what a failed decode leaves for the next (spec/43_cursor_tracker.md R130, R132). -/

namespace Sys2Proof.Machine

open Sys2Proof.Claims

/-- REM after a decode that consumed n bytes of the window (43_cursor_tracker.md R128). -/
theorem decodedFrom_rem_toNat {s : State} {n : Nat} (hn : n ≤ s.rem.toNat) (v : Value) : (decodedFrom s v n).rem.toNat = s.rem.toNat - n := by
  have hlt := s.rem.isLt
  have hofNat : (BitVec.ofNat s.lw n).toNat = n := by rw [BitVec.toNat_ofNat, Nat.mod_eq_of_lt (by omega)]
  show (s.rem - BitVec.ofNat s.lw n).toNat = _
  rw [BitVec.toNat_sub_of_le (by rwa [BitVec.le_def, hofNat]), hofNat]

/-- END stays where it is when POS advances and REM falls by the bytes consumed (43_cursor_tracker.md R130). -/
theorem decodedFrom_end {s : State} {n : Nat} (hn : n ≤ s.rem.toNat) (v : Value) :
    ((decodedFrom s v n).pos.toNat + (decodedFrom s v n).rem.toNat) % 2 ^ s.aw = (s.pos.toNat + s.rem.toNat) % 2 ^ s.aw := by
  rw [decodedFrom_rem_toNat hn]
  show ((addr s.pos n).toNat + _) % _ = _
  rw [addr_toNat, Nat.mod_add_mod]
  congr 1
  omega

/-- Everything a decode command can do: it consumes bytes of the window, or it fails. -/
theorem exec_decode_cases {i : Instr} (hi : i.isDecode = true) (s : State) :
    (∃ v n, n ≤ s.rem.toNat ∧ exec i s = .next (decodedFrom s v n)) ∨
      ∃ v st n, st ≠ 0b001#3 ∧ exec i s = .next (failedFrom s v st n) := by
  rcases window_cases (width_cases i) s.mem s.pos s.rem with ⟨u, n, _, hholds⟩ | hexhausted | hoverlong
  · obtain ⟨f, hf⟩ := exec_decode hi
    obtain ⟨_, hn⟩ := windowHolds_bounds hholds
    exact .inl ⟨_, n, hn.trans (min_le_left _ _), (hf s).trans (congrArg _ (decodeCommand_ok (width_cases i) f hholds))⟩
  · obtain ⟨v, hv⟩ := exec_decode_exhausted hi hexhausted
    exact .inr ⟨v, _, _, by decide, hv⟩
  · obtain ⟨v, hv⟩ := exec_decode_overlong hi hoverlong
    exact .inr ⟨v, _, _, by decide, hv⟩

/-- Settles O47: a decode consumes bytes and keeps END (`decodedFrom_end`), or fails and empties the window; the other kinds write neither POS
nor REM. -/
theorem windowEndOnlyMovesOnFailure : Obligations.WindowEndOnlyMovesOnFailure := by
  intro i s
  rcases kind_cases i with hi | hi | hi
  · obtain ⟨_, ht⟩ := exec_pure hi s
    exact ⟨_, ht, fun _ => rfl, fun h => absurd rfl h⟩
  · obtain ⟨_, ht⟩ := exec_encode hi s
    exact ⟨_, ht, fun _ => rfl, fun h => absurd rfl h⟩
  · rcases exec_decode_cases hi s with ⟨v, n, hn, ht⟩ | ⟨v, st, n, hst, ht⟩
    · exact ⟨_, ht, fun _ => decodedFrom_end hn v, fun h => absurd rfl h⟩
    · refine ⟨_, ht, fun h => absurd h hst, fun _ => ⟨hi, rfl, ?_⟩⟩
      show (s.pos.toNat + (0#s.lw).toNat) % 2 ^ s.aw = s.pos.toNat
      rw [BitVec.toNat_zero, Nat.add_zero, Nat.mod_eq_of_lt s.pos.isLt]

/-- Settles O48: a failed decode leaves the empty window, which no decode reads (`exec_decode_empty`). -/
theorem deadCursorFailsWithoutReading : Obligations.DeadCursorFailsWithoutReading := by
  intro i j hi hj s
  rcases exec_decode_cases hi s with ⟨v, n, _, ht⟩ | ⟨v, st, n, _, ht⟩
  · exact ⟨_, ht, fun h => absurd rfl h⟩
  · have hrem : (failedFrom s v st n).rem.toNat = 0 := BitVec.toNat_zero
    exact ⟨_, ht, fun _ => ⟨hrem, rfl, exec_decode_empty hj _ hrem⟩⟩

end Sys2Proof.Machine
end

section
/-! PROOFS. The commands that never touch the cursor (spec/43_cursor_tracker.md R133). -/

namespace Sys2Proof.Machine

/-- A pure command commutes with a change of the cursor. -/
theorem pureCommand_with_cursor {W : Nat} (v : BitVec W) (s : State) (p : BitVec s.aw) (r : BitVec s.lw) :
    pureCommand v { s with pos := p, rem := r } = { pureCommand v s with pos := p, rem := r } := rfl

/-- An encode command commutes with a change of the cursor: it packs at DST, and commits neither POS nor REM. -/
theorem packCommand_with_cursor {W : Nat} (u : BitVec W) (s : State) (p : BitVec s.aw) (r : BitVec s.lw) :
    packCommand u { s with pos := p, rem := r } = { packCommand u s with pos := p, rem := r } := rfl

/-- Settles O49: the operand is read from VIN alone, and from there on neither kind of command reads or writes the cursor
(`pureCommand_with_cursor`, `packCommand_with_cursor`); a reserved word is an illegal command (`issueCommand_reserved`). -/
theorem otherCommandsIgnoreTheCursor : Obligations.OtherCommandsIgnoreTheCursor := by
  refine ⟨?_, fun _ s hc => issueCommand_reserved hc s⟩
  rintro i (hi | hi) s
  · obtain ⟨g, hg⟩ := exec_pure_operand hi
    let t := pureCommand (g (operand i.width s)) s
    exact ⟨t.vout, t.cnt, t.st, t.mem, t.trace, fun p r => (hg _).trans (congrArg _ (pureCommand_with_cursor _ s p r))⟩
  · obtain ⟨g, hg⟩ := exec_encode_operand hi
    let t := packCommand (g (operand i.width s)) s
    exact ⟨t.vout, t.cnt, t.st, t.mem, t.trace, fun p r => (hg _).trans (congrArg _ (packCommand_with_cursor _ s p r))⟩

end Sys2Proof.Machine
end

section
/-! PROOFS. Encoded integers laid end to end, read back by as many READZINT (spec/43_cursor_tracker.md R131). -/

namespace Sys2Proof.Machine

open Sys2Proof.Claims

theorem addr_addr {aw : Nat} (a : BitVec aw) (j k : Nat) : addr (addr a j) k = addr a (j + k) := by
  rw [addr, addr, addr, BitVec.ofNat_add, BitVec.add_assoc]

/-- The bytes of a window, parted after the first n: the rest is the window at the advanced position. -/
theorem windowBytes_add {aw : Nat} (m : Memory) (pos : BitVec aw) (n k : Nat) :
    windowBytes m pos (n + k) = windowBytes m pos n ++ windowBytes m (addr pos n) k := by
  induction k with
  | zero => exact (List.append_nil _).symm
  | succ k ih => rw [← Nat.add_assoc, windowBytes_succ, ih, List.append_assoc, windowBytes_succ, windowByte, windowByte, addr_addr]

/-- A window that starts with the given bytes, said of the list of its bytes. -/
theorem windowBytes_eq_iff {aw : Nat} {m : Memory} {pos : BitVec aw} {bs : List Byte} :
    windowBytes m pos bs.length = bs ↔ ∀ k (h : k < bs.length), windowByte m pos k = bs[k] := by
  constructor
  · intro heq k hk
    have hget := List.getElem_of_eq heq (by rwa [windowBytes_length])
    simpa [windowBytes] using hget
  · intro h
    refine List.ext_getElem (windowBytes_length ..) fun k _ hk => ?_
    rw [← h k hk]
    simp [windowBytes]

/-- A window that starts with two byte sequences end to end starts with the first, and past it with the second. -/
theorem windowBytes_append {aw : Nat} {m : Memory} {pos : BitVec aw} {as bs : List Byte}
    (h : windowBytes m pos (as ++ bs).length = as ++ bs) :
    windowBytes m pos as.length = as ∧ windowBytes m (addr pos as.length) bs.length = bs := by
  rw [List.length_append, windowBytes_add] at h
  exact List.append_inj h (windowBytes_length ..)

theorem packedAt_of_windowBytes {aw u : Nat} {m : Memory} {pos : BitVec aw} (h : windowBytes m pos (packedBytes u).length = packedBytes u) :
    packedAt u m pos := by
  rw [packedBytes_length] at h
  exact fun k hk => List.map_inj_left.1 h k (List.mem_range.2 hk)

/-- How many bytes the encoding of a signed integer takes. -/
def codeLength (v : BitVec 32) : Nat := wireLength (foldSigned v.toInt)

/-- READZINT over the encoding of a signed integer (44_composite.md R142): the code is that of the value (`zigzagEncode_toNat`), and is unfolded
to it. -/
theorem exec_readzint_packed {s : State} {v : BitVec 32} (hb : packedAt (foldSigned v.toInt) s.mem s.pos) (hr : codeLength v ≤ s.rem.toNat) :
    exec .readzint s = .next (decodedFrom s (result v) (codeLength v)) := by
  have hcode := zigzagEncode_toNat (by decide) v
  have hholds : windowHolds 32 s.mem s.pos s.rem.toNat _ (codeLength v) :=
    windowHolds_of_packed (.inl rfl) (hcode ▸ (zigzagEncode v).isLt) hb hr
  have hdecoded := decodeCommand_ok (.inl rfl) zigzagDecode hholds
  rw [← hcode, BitVec.ofNat_toNat, BitVec.setWidth_eq, zigzagDecode_zigzagEncode (by decide)] at hdecoded
  exact congrArg Host.Outcome.next hdecoded

/-- The state after `cmd READZINT ; rd VOUT` over the encoding of a signed integer, with the actions to come. -/
def readBack (s : State) (v : BitVec 32) (rest : List HostAction) : State :=
  { decodedFrom s (result v) (codeLength v) with pending := rest, returned := s.returned ++ [.rd 1 v.toNat] }

/-- The first two actions of a run that reads an encoded integer back. -/
theorem run_readBack (k : Nat) {s : State} {v : BitVec 32} {rest : List HostAction} (hp : s.pending = .cmd 0b00001100#8 :: .rd 1 :: rest)
    (hb : packedAt (foldSigned v.toInt) s.mem s.pos) (hr : codeLength v ≤ s.rem.toNat) :
    Host.Core.run core (k + 2) s = Host.Core.run core k (readBack s v rest) := by
  let c := takeAction (.rd 1 :: rest) s
  have hcmd : perform (.cmd 0b00001100#8) c = .next (decodedFrom c (result v) (codeLength v)) :=
    (perform_cmd_of_decode (decode_encode .readzint) c).trans (exec_readzint_packed hb hr)
  rw [run_action (k + 1) _ _ hp hcmd, run_action k (.rd 1) rest rfl rfl, readBack, ← result_toNat_32 v]
  rfl

/-- Settles O50, by induction on the values: the first is read back (`run_readBack`), and what it leaves of the window starts with the rest
(`windowBytes_append`). -/
theorem chainedDecodeReturnsEveryValue : Obligations.ChainedDecodeReturnsEveryValue := by
  rintro s vs _ rfl hbytes hlen hp
  rw [← windowBytes_eq_iff] at hbytes
  induction vs generalizing s with
  | nil => exact ⟨s, rfl, hp, (List.append_nil _).symm, by simp [addr], rfl⟩
  | cons v vs ih =>
    simp only [List.flatMap_cons] at hbytes hlen hp ⊢
    obtain ⟨hfirst, hrest⟩ := windowBytes_append hbytes
    rw [packedBytes_length] at hrest
    rw [List.length_append, packedBytes_length] at hlen ⊢
    have hr : codeLength v ≤ s.rem.toNat := (Nat.le_add_right ..).trans hlen
    let s' := readBack s v (vs.flatMap fun _ => [.cmd 0b00001100#8, .rd 1])
    have hrem : s'.rem.toNat = s.rem.toNat - codeLength v := decodedFrom_rem_toNat hr (result v)
    obtain ⟨t, hrun, hpending, hreturned, htpos, htrem⟩ := ih s' hrest (by rw [hrem]; exact Nat.le_sub_of_add_le' hlen) rfl
    refine ⟨t, ?_, hpending, ?_, ?_, ?_⟩
    · exact (run_readBack _ hp (packedAt_of_windowBytes hfirst) hr).trans hrun
    · rw [hreturned, List.map_cons]
      exact List.append_assoc s.returned [.rd 1 v.toNat] _
    · rw [htpos, ← addr_addr]
      rfl
    · rw [htrem, hrem, Nat.sub_sub]
      rfl

end Sys2Proof.Machine
end

section
/-! PROOFS. PUTZINT and PUTZLONG (spec/44_composite.md R140, R141): the bytes of the code of the signed operand. -/

namespace Sys2Proof.Machine

open Sys2Proof.Claims

/-- An encode command of a signed value: it packs the value's code (`zigzagEncode_toNat`). -/
theorem packCommand_zigzagEncode_spec {W : Nat} (hW : W = 32 ∨ W = 64) (n : BitVec W) {s : State} (ha : 4 ≤ s.aw) (hm : s.mem.wf) :
    encodedInto (foldSigned n.toInt) s (packCommand (zigzagEncode n) s) := by
  have hM : maxLen W ≤ 16 := by rcases hW with rfl | rfl <;> decide
  rw [← zigzagEncode_toNat (by omega)]
  exact packCommand_spec (by omega) hM (zigzagEncode n) s ha hm

/-- A 32-bit value is encoded alike at either width: sign extension keeps the integer, and with it the code (44_composite.md R141). -/
theorem packCommand_zigzagEncode_signExtend (v : BitVec 32) (s : State) :
    packCommand (zigzagEncode (v.signExtend 64)) s = packCommand (zigzagEncode v) s := by
  apply packCommand_congr (by decide) (by decide)
  rw [zigzagEncode_toNat (by decide), zigzagEncode_toNat (by decide), BitVec.toInt_signExtend_of_le (by decide)]

/-- The low half of a sign-extended 32-bit value is that value. -/
theorem signExtend_low (v : BitVec 32) : (v.signExtend 64).extractLsb' 0 32 = v := by
  apply BitVec.eq_of_getLsbD_eq
  intro i hi
  rw [BitVec.getLsbD_extractLsb', BitVec.getLsbD_signExtend]
  simp [hi, show i < 64 by omega]

/-- Settles O26: the operand is the low half of VIN, and what is packed is its code (`packCommand_zigzagEncode_spec`). -/
theorem putzintStoresTheFoldedVarint : Obligations.PutzintStoresTheFoldedVarint :=
  ⟨decode_encode .putzint, fun s hlegal hm => ⟨_, rfl, packCommand_zigzagEncode_spec (.inl rfl) (operand 32 s) hlegal.1 hm⟩⟩

/-- Settles O27: the operand is all of VIN (`operand_64`); on a sign-extended value PUTZINT finds the value itself in the low half
(`signExtend_low`), and both pack the same code (`packCommand_zigzagEncode_signExtend`). -/
theorem putzlongStoresTheFoldedVarint : Obligations.PutzlongStoresTheFoldedVarint := by
  refine ⟨decode_encode .putzlong, fun s hlegal hm => ⟨_, rfl, ?_⟩, fun s v => ?_⟩
  · rw [← operand_64 s]
    exact packCommand_zigzagEncode_spec (.inr rfl) (operand 64 s) hlegal.1 hm
  · let s' : State := { s with vin := v.signExtend 64 }
    have hwide : operand 64 s' = v.signExtend 64 := operand_64 s'
    have hnarrow : operand 32 s' = v := signExtend_low v
    calc exec .putzlong s'
      _ = .next (packCommand (zigzagEncode (operand 64 s')) s') := rfl
      _ = .next (packCommand (zigzagEncode (operand 32 s')) s') := by rw [hwide, hnarrow, packCommand_zigzagEncode_signExtend]
      _ = exec .putzint s' := rfl

end Sys2Proof.Machine
end

section
/-! PROOFS. READZINT and READZLONG (spec/44_composite.md R142, R143). -/

namespace Sys2Proof.Machine

open Sys2Proof.Claims

/-- A decode that unfolds the code it reads: VOUT is the signed integer of the code, which fits the width (`windowHolds_lt`). -/
theorem decodeCommand_zigzagDecode_ok {W : Nat} (hW : W = 32 ∨ W = 64) {s : State} {u n : Nat} (h : windowHolds W s.mem s.pos s.rem.toNat u n) :
    decodeCommand (W := W) zigzagDecode s = decodedFrom s (result (BitVec.ofInt W (unfoldCode u))) n := by
  rw [decodeCommand_ok hW zigzagDecode h, zigzagDecode_ofNat (by omega) u (windowHolds_lt hW h)]
  rfl

/-- Settles O41 (`decodeCommand_zigzagDecode_ok`, `exec_decode_exhausted`, `exec_decode_overlong`). -/
theorem readzintDecodes : Obligations.ReadzintDecodes :=
  ⟨decode_encode .readzint, fun _ => ⟨fun _ _ h => congrArg Host.Outcome.next (decodeCommand_zigzagDecode_ok (.inl rfl) h),
    exec_decode_exhausted (i := .readzint) rfl, exec_decode_overlong (i := .readzint) rfl⟩⟩

/-- Settles O42, as O41, with a result that fills VOUT (`result_64`). -/
theorem readzlongDecodes : Obligations.ReadzlongDecodes := by
  refine ⟨decode_encode .readzlong, fun s => ⟨fun u n h => ?_, exec_decode_exhausted (i := .readzlong) rfl,
    exec_decode_overlong (i := .readzlong) rfl⟩⟩
  rw [← result_64 (BitVec.ofInt 64 (unfoldCode u))]
  exact congrArg Host.Outcome.next (decodeCommand_zigzagDecode_ok (.inr rfl) h)

end Sys2Proof.Machine
end

section
/-! PROOFS. The composite commands and their parts (spec/44_composite.md R144). -/

namespace Sys2Proof.Machine

/-- The host hands the result on as the next operand: the `wr VIN, x[VOUT]` between the parts of a composite. -/
def handOn (s : State) : State := { s with vin := s.vout }

theorem perform_wr_vin_vout (s : State) : perform (.wr 0 s.vout.toNat) s = .next (handOn s) := perform_wr_vin s.vout s

/-- A result that was handed on is the operand of the next command of its width. -/
theorem operand_handOn {W : Nat} (hW : W ≤ 64) {v : BitVec W} {s : State} (h : s.vout = result v) : operand W (handOn s) = v := by
  show s.vout.extractLsb' 0 W = v
  rw [h, result, BitVec.extractLsb'_setWidth_of_le (by omega), BitVec.extractLsb'_eq_self]

/-- An encode of a computed value does what its two parts do, but for VIN and VOUT, which it leaves alone. -/
theorem packCommand_eq_parts {W : Nat} (hW : W ≤ 64) (v : BitVec W) (s : State) :
    packCommand v s =
      { packCommand (operand W (handOn (pureCommand v s))) (handOn (pureCommand v s)) with vin := s.vin, vout := s.vout } := by
  rw [operand_handOn hW (v := v) rfl]
  rfl

/-- A decode that succeeds does what its two parts do, but for VIN, which it leaves alone. -/
theorem decodeCommand_eq_parts {W : Nat} (hW : W = 32 ∨ W = 64) (f : BitVec W → BitVec W) {s : State}
    (h : (decodeCommand (W := W) id s).st = 0b001#3) :
    decodeCommand f s =
      { pureCommand (f (operand W (handOn (decodeCommand (W := W) id s)))) (handOn (decodeCommand (W := W) id s)) with vin := s.vin } := by
  rcases decodeCommand_cases hW id s with ⟨u, n, _, hholds, he⟩ | ⟨_, he⟩ | ⟨_, he⟩
  · rw [he, decodeCommand_ok hW f hholds, operand_handOn (by omega) (v := BitVec.ofNat W u) rfl]
    rfl
  · rw [he] at h
    exact absurd (show 0b010#3 = 0b001#3 from h) (by decide)
  · rw [he] at h
    exact absurd (show 0b100#3 = 0b001#3 from h) (by decide)

/-- A decode that fails does not come to its second part: it does what the unpack alone does. -/
theorem decodeCommand_eq_unpack {W : Nat} (hW : W = 32 ∨ W = 64) (f : BitVec W → BitVec W) {s : State}
    (h : (decodeCommand (W := W) id s).st ≠ 0b001#3) : decodeCommand f s = decodeCommand (W := W) id s := by
  rcases decodeCommand_cases hW id s with ⟨u, n, _, _, he⟩ | ⟨hexhausted, he⟩ | ⟨hoverlong, he⟩
  · exact absurd (congrArg State.st he) h
  · rw [he, decodeCommand_exhausted hW f hexhausted]
  · rw [he, decodeCommand_overlong hW f hoverlong]

/-- Settles O54: the encodes by `packCommand_eq_parts`; the decodes by `decodeCommand_eq_parts` where the unpack succeeds and by
`decodeCommand_eq_unpack` where it fails. -/
theorem compositesEqualTheirParts : Obligations.CompositesEqualTheirParts := by
  refine ⟨fun s => ⟨_, _, _, rfl, rfl, rfl, ?_⟩, fun s => ⟨_, _, _, rfl, rfl, rfl, ?_⟩,
    fun s => ⟨_, _, rfl, rfl, fun h => ⟨_, rfl, ?_⟩, fun h => ?_⟩, fun s => ⟨_, _, rfl, rfl, fun h => ⟨_, rfl, ?_⟩, fun h => ?_⟩⟩
  · rw [packCommand_eq_parts (by decide)]
    exact ⟨rfl, rfl, rfl⟩
  · rw [packCommand_eq_parts (by decide)]
    exact ⟨rfl, rfl, rfl⟩
  · rw [decodeCommand_eq_parts (.inl rfl) zigzagDecode h]
    exact ⟨rfl, rfl, rfl, rfl, rfl⟩
  · rw [decodeCommand_eq_unpack (.inl rfl) zigzagDecode h]
    exact ⟨rfl, rfl, rfl, rfl⟩
  · rw [decodeCommand_eq_parts (.inr rfl) zigzagDecode h]
    exact ⟨rfl, rfl, rfl, rfl, rfl⟩
  · rw [decodeCommand_eq_unpack (.inr rfl) zigzagDecode h]
    exact ⟨rfl, rfl, rfl, rfl⟩

end Sys2Proof.Machine
end

section
/-! PROOFS. Decoding what was just encoded: the round trip at one width, and with the widths mixed (spec/44_composite.md R145, R147). -/

namespace Sys2Proof.Machine

open Sys2Proof.Claims

/-- The state after an encode, with the cursor loaded over the bytes at DST and the actions to come. -/
def rewound (e : State) (B : BitVec e.lw) (rest : List HostAction) : State := { e with pos := e.dst, rem := B, pending := rest }

/-- The two writes that load the cursor. -/
theorem run_rewound (k : Nat) (e : State) (B : BitVec e.lw) {rest : List HostAction}
    (hp : e.pending = .wr 4 e.dst.toNat :: .wr 5 B.toNat :: rest) :
    Host.Core.run core (k + 2) e = Host.Core.run core k (rewound e B rest) :=
  calc Host.Core.run core (k + 2) e
    _ = Host.Core.run core (k + 1) { e with pos := e.dst, pending := .wr 5 B.toNat :: rest } :=
      run_action (k + 1) _ _ hp (perform_wr_pos (takeAction (.wr 5 B.toNat :: rest) e) e.dst)
    _ = _ := run_action k _ _ rfl (perform_wr_rem { e with pos := e.dst, pending := rest } B)

/-- The two writes that load the operand and the destination of an encode. -/
theorem run_operands (k : Nat) {s : State} {x : BitVec 64} {d : BitVec s.aw} {rest : List HostAction}
    (hp : s.pending = .wr 0 x.toNat :: .wr 2 d.toNat :: rest) :
    Host.Core.run core (k + 2) s = Host.Core.run core k { s with vin := x, dst := d, pending := rest } :=
  calc Host.Core.run core (k + 2) s
    _ = Host.Core.run core (k + 1) { s with vin := x, pending := .wr 2 d.toNat :: rest } := run_action (k + 1) _ _ hp (perform_wr_vin x _)
    _ = _ := run_action k _ _ rfl (perform_wr_dst { s with vin := x, pending := rest } d)

/-- One command of a run. -/
theorem run_command (k : Nat) {i : Instr} {c : CommandWord} (hc : decode c = .ok i) {s t : State} {rest : List HostAction}
    (hp : s.pending = .cmd c :: rest) (ht : exec i (takeAction rest s) = .next t) : Host.Core.run core (k + 1) s = Host.Core.run core k t :=
  run_action k _ _ hp ((perform_cmd_of_decode hc _).trans ht)

/-- After the encode of a signed value the bytes of its code stand at DST. -/
theorem packedAt_packCommand {W : Nat} (hW : W = 32 ∨ W = 64) (v : BitVec W) {s : State} (ha : 4 ≤ s.aw) (hm : s.mem.wf) :
    packedAt (foldSigned v.toInt) (packCommand (zigzagEncode v) s).mem s.dst := by
  obtain ⟨m, he, hin, _⟩ := packCommand_zigzagEncode_spec hW v ha hm
  rw [he]
  exact hin

/-- Decoding what an encode of the signed value v left: v comes back from a window long enough, and a shorter one is EXHAUSTED. -/
theorem decodeCommand_rewound {W : Nat} (hW : W = 32 ∨ W = 64) (v : BitVec W) {s e : State} (he : e = packCommand (zigzagEncode v) s)
    (ha : 4 ≤ s.aw) (hm : s.mem.wf) (B : BitVec e.lw) (rest : List HostAction) :
    (e.cnt.toNat ≤ B.toNat →
      decodeCommand (W := W) zigzagDecode (rewound e B rest) = decodedFrom (rewound e B rest) (result v) e.cnt.toNat) ∧
    (B.toNat < e.cnt.toNat →
      decodeCommand (W := W) zigzagDecode (rewound e B rest) = failedFrom (rewound e B rest) (Config.unspecified64 e.draws) 0b010#3 B.toNat) := by
  subst he
  have hM : maxLen W ≤ 16 := by rcases hW with rfl | rfl <;> decide
  have hencoded := packCommand_spec (by omega) hM (zigzagEncode v) s ha hm
  have hdecode := decodeCommand_of_encodedInto hW _ _ s hencoded zigzagDecode (rewound _ B rest) rfl s.dst (fun _ => rfl) rfl
  rw [zigzagDecode_zigzagEncode (by omega), ← packCommand_cnt hW _ s] at hdecode
  exact hdecode

/-- The round trip as a run, at either width: two commands that encode and decode the signed operand of that width. -/
theorem run_roundTrip {W : Nat} (hW : W = 32 ∨ W = 64) {i j : Instr} (hi : ∀ s, exec i s = .next (packCommand (zigzagEncode (operand W s)) s))
    (hj : ∀ s, exec j s = .next (decodeCommand (W := W) zigzagDecode s)) {s : State} {x : BitVec 64} {d : BitVec s.aw} {B : BitVec s.lw}
    (hs : Inv s)
    (hp : s.pending = [.wr 0 x.toNat, .wr 2 d.toNat, .cmd (encode i), .wr 4 d.toNat, .wr 5 B.toNat, .cmd (encode j)]) :
    ∃ e t, Host.Core.run core 3 s = .next e ∧ Host.Core.run core 6 s = .next t ∧
      (e.cnt.toNat ≤ B.toNat → t.st = 0b001#3 ∧ t.vout = result (x.extractLsb' 0 W) ∧ t.cnt = e.cnt ∧
        t.pos.toNat = (addr d e.cnt.toNat).toNat ∧ t.rem.toNat = B.toNat - e.cnt.toNat) ∧
      (B.toNat < e.cnt.toNat → t.st = 0b010#3 ∧ t.pos.toNat = d.toNat ∧ t.rem.toNat = 0) := by
  obtain ⟨⟨haw, _⟩, _, _, hwf, _⟩ := hs
  let s' : State := { s with vin := x, dst := d, pending := [.wr 4 d.toNat, .wr 5 B.toNat, .cmd (encode j)] }
  let e := packCommand (zigzagEncode (operand W s')) s'
  have he : e = packCommand (zigzagEncode (operand W s')) s' := rfl
  have hencode : ∀ k, Host.Core.run core (k + 3) s = Host.Core.run core k e := fun k =>
    (run_operands (k + 1) hp).trans (run_command k (decode_encode i) rfl (hi s'))
  have hdecode : Host.Core.run core 3 e = .next (decodeCommand (W := W) zigzagDecode (rewound e B [])) :=
    (run_rewound 1 e B rfl).trans (run_command 0 (decode_encode j) rfl (hj _))
  obtain ⟨hlong, hshort⟩ := decodeCommand_rewound hW _ he haw hwf B []
  refine ⟨e, _, hencode 0, (hencode 3).trans hdecode, fun hB => ?_, fun hB => ?_⟩
  · have hback := hlong hB
    exact ⟨congrArg State.st hback, congrArg State.vout hback, (congrArg State.cnt hback).trans (BitVec.ofNat_toNat ..),
      congrArg (·.pos.toNat) hback, (congrArg (·.rem.toNat) hback).trans (decodedFrom_rem_toNat hB _)⟩
  · have hfail := hshort hB
    exact ⟨congrArg State.st hfail, congrArg (·.pos.toNat) hfail, (congrArg (·.rem.toNat) hfail).trans BitVec.toNat_zero⟩

/-- Settles O56: `run_roundTrip` at each width; at 64 the operand is all of VIN and the result all of VOUT. -/
theorem encodeThenDecodeReturnsTheValue : Obligations.EncodeThenDecodeReturnsTheValue := by
  refine ⟨fun s x d B hs hp => ?_, fun s x d B hs hp => ?_⟩
  · exact run_roundTrip (.inl rfl) (i := .putzint) (j := .readzint) (fun _ => rfl) (fun _ => rfl) hs hp
  · have hwide := run_roundTrip (.inr rfl) (i := .putzlong) (j := .readzlong) (fun _ => rfl) (fun _ => rfl) hs hp
    rwa [BitVec.extractLsb'_eq_self, result_64] at hwide

/-- A value of the 32-bit range is its low half, sign-extended. -/
theorem signExtend_low_of_range {x : BitVec 64} (h : -2 ^ 31 ≤ x.toInt ∧ x.toInt < 2 ^ 31) : (x.extractLsb' 0 32).signExtend 64 = x := by
  apply BitVec.eq_of_toInt_eq
  rw [BitVec.toInt_signExtend_of_le (by decide), ← BitVec.setWidth_eq_extractLsb' (by decide), BitVec.toInt_setWidth,
    ← Int.bmod_bmod_of_dvd (by decide : 2 ^ 32 ∣ 2 ^ 64), ← BitVec.toInt_eq_toNat_bmod]
  exact Int.bmod_eq_of_le (by omega) (by omega)

/-- Settles O57: a value of the 32-bit range is encoded alike at both widths (`packCommand_zigzagEncode_signExtend`), so it comes back at either
(`decodeCommand_rewound`); the code of any other is too wide for 32 bits (`foldSigned_lt_two_pow`, `windowOverlong_of_packed`). -/
theorem crossWidthDecode : Obligations.CrossWidthDecode := by
  intro s hlegal hm
  obtain ⟨ha, _⟩ := hlegal
  refine ⟨⟨_, rfl, fun B hB => ⟨_, rfl, ?_⟩⟩, ⟨_, rfl, fun B hB => ⟨_, rfl, fun hrange => ?_, fun hrange => ?_⟩⟩⟩
  · have hsame := (packCommand_zigzagEncode_signExtend (operand 32 s) s).symm
    have hback := (decodeCommand_rewound (.inr rfl) _ hsame ha hm B s.pending).1 hB
    rw [result_64] at hback
    exact ⟨congrArg State.st hback, congrArg State.vout hback⟩
  · have hsame : packCommand (zigzagEncode (operand 64 s)) s = packCommand (zigzagEncode (operand 32 s)) s := by
      rw [← packCommand_zigzagEncode_signExtend, operand_64, operand, signExtend_low_of_range hrange]
    have hback := (decodeCommand_rewound (.inl rfl) _ hsame ha hm B s.pending).1 hB
    exact ⟨congrArg State.st hback, (congrArg (·.vout.extractLsb' 0 32) hback).trans (result_low_32 _)⟩
  · have hb := packedAt_packCommand (.inr rfl) (operand 64 s) ha hm
    have hcnt := packCommand_zigzagEncode_cnt (.inr rfl) (operand 64 s) s
    have hbig : 2 ^ 32 ≤ foldSigned (operand 64 s).toInt := by
      rw [← not_lt, foldSigned_lt_two_pow (by decide), operand_64]
      exact hrange
    have hfail := decodeCommand_overlong (.inl rfl) zigzagDecode (s := rewound _ B s.pending)
      (windowOverlong_of_packed hbig hb (hcnt ▸ hB))
    exact congrArg State.st hfail

end Sys2Proof.Machine
end

section
/-! PROOFS. Encoding again what was decoded (spec/44_composite.md R146). -/

namespace Sys2Proof.Machine

open Sys2Proof.Claims

section
variable {aw W rem u n : Nat} {m : Memory} {pos : BitVec aw} (h : windowHolds W m pos rem u n)
include h

theorem wireValue_of_windowHolds : wireValue (windowBytes m pos n) = u := by
  obtain ⟨t, rfl, _, _, _, _, rfl⟩ := h
  rfl

/-- The packed form of a value is never longer than the window's (30_encoding.md R77). -/
theorem wireLength_le_of_windowHolds : wireLength u ≤ n := by
  obtain ⟨hpos, _⟩ := windowHolds_bounds h
  have hlt := wireValue_lt (windowBytes m pos n)
  rw [wireValue_of_windowHolds h, windowBytes_length] at hlt
  exact (wireLength_le_iff hpos).2 hlt

/-- A value reaches the last group of its window exactly when that group is not zero: the groups below it carry less. -/
theorem pow_le_iff_last_payload_ne : 2 ^ (7 * (n - 1)) ≤ u ↔ wirePayload (windowByte m pos (n - 1)) ≠ 0#7 := by
  obtain ⟨t, rfl, _, _, _, _, rfl⟩ := h
  have hlow := wireValue_lt (windowBytes m pos t)
  rw [windowBytes_length] at hlow
  rw [Nat.add_sub_cancel, windowBytes_succ, wireValue_append, windowBytes_length, ne_eq, ← BitVec.toNat_inj, BitVec.toNat_zero]
  constructor
  · intro hle hzero
    rw [hzero] at hle
    omega
  · intro hne
    exact (Nat.le_mul_of_pos_right _ (Nat.pos_of_ne_zero hne)).trans (Nat.le_add_left _ _)

/-- The window is minimal exactly when it is one byte or its last group is not zero (30_encoding.md R77). -/
theorem wireLength_eq_iff_of_windowHolds : wireLength u = n ↔ n = 1 ∨ wirePayload (windowByte m pos (n - 1)) ≠ 0#7 := by
  obtain ⟨hpos, _⟩ := windowHolds_bounds h
  have hle := wireLength_le_of_windowHolds h
  have hlen := wireLength_pos u
  rw [← pow_le_iff_last_payload_ne h]
  rcases Nat.lt_or_ge n 2 with hn | hn
  · exact ⟨fun _ => .inl (by omega), fun _ => by omega⟩
  · have hlt := (wireLength_le_iff hpos).1 hle
    rw [wireLength_eq_iff u hn, and_iff_left hlt, or_iff_right (by omega)]

/-- The packed bytes of the value of a minimal window are the window's: the same groups, and the same end (30_encoding.md R77). -/
theorem packedByte_of_windowHolds (hn : wireLength u = n) {i : Nat} (hi : i < n) : packedByte u i = windowByte m pos i := by
  have hmore : wireMore (packedByte u i) = wireMore (windowByte m pos i) := by
    rw [packedByte_more, hn]
    obtain ⟨t, rfl, _, hmore, hlast, _, _⟩ := h
    rcases Nat.lt_or_ge i t with hit | hit
    · rw [hmore i hit, decide_eq_true (by omega)]
    · rw [show i = t by omega, hlast, decide_eq_false (by omega)]
  have hpayload : wirePayload (packedByte u i) = wirePayload (windowByte m pos i) := by
    have hgroup := wireValue_group (windowBytes m pos n) i (by rwa [windowBytes_length])
    rw [wireValue_of_windowHolds h, ← packedByte_payload] at hgroup
    apply BitVec.eq_of_toNat_eq
    simpa [windowBytes] using hgroup
  rw [← wireByte_eta (packedByte u i), hmore, hpayload, wireByte_eta]

end

@[simp] theorem readsFrom_length {aw : Nat} (pos : BitVec aw) (n : Nat) : (readsFrom pos n).length = n := by
  simp [readsFrom]

/-- The byte writes of an encode, by index (41_varint_pack.md R102). -/
theorem getElem?_writesOf {aw : Nat} (d : BitVec aw) {u i : Nat} (hi : i < wireLength u) :
    (writesOf d u)[i]? = some (.write (addr d i).toNat (packedByte u i)) := by
  simp [writesOf, hi]

/-- CNT after a decode of at most ten bytes. -/
theorem decodedFrom_cnt_toNat {n : Nat} (hn : n ≤ 10) (s : State) (v : Value) : (decodedFrom s v n).cnt.toNat = n := by
  show (BitVec.ofNat 4 n).toNat = n
  rw [BitVec.toNat_ofNat, Nat.mod_eq_of_lt (by omega)]

/-- Settles O58: what is encoded again is the value the window holds (`operand_handOn`), and it takes the packed form of that value:
`wireLength_eq_iff_of_windowHolds` for the length, `packedByte_of_windowHolds` for the bytes. -/
theorem reencodingReproducesMinimalInput : Obligations.ReencodingReproducesMinimalInput := by
  intro s u n h
  let t := decodedFrom s (BitVec.ofNat 64 u) n
  have hdecode : exec .vunpack64 s = .next t := congrArg Host.Outcome.next (decodeCommand_id_ok (.inr rfl) h)
  have hoperand : (operand 64 (handOn t)).toNat = u := by
    rw [operand_handOn le_rfl (v := BitVec.ofNat 64 u) (result_64 _).symm, BitVec.toNat_ofNat, Nat.mod_eq_of_lt (windowHolds_lt (.inr rfl) h)]
  have hcnt := packCommand_cnt (.inr rfl) (operand 64 (handOn t)) (handOn t)
  rw [hoperand] at hcnt
  refine ⟨t, packCommand (operand 64 (handOn t)) (handOn t), hdecode, rfl, decodedFrom_cnt_toNat (windowHolds_length_le h) _ _, ?_⟩
  rw [hcnt]
  refine ⟨wireLength_le_of_windowHolds h, wireLength_eq_iff_of_windowHolds h, fun hn i hi => ?_⟩
  have htrace : (packCommand (operand 64 (handOn t)) (handOn t)).trace = s.trace ++ readsFrom s.pos n ++ writesOf s.dst u := by
    rw [packCommand_eq (by decide), hoperand]
    rfl
  have hindex : s.trace.length + n + i = (s.trace ++ readsFrom s.pos n).length + i := by simp
  rw [htrace, hindex, List.getElem?_append_right (Nat.le_add_right ..), Nat.add_sub_cancel_left, getElem?_writesOf _ (hn ▸ hi),
    packedByte_of_windowHolds h hn hi]

end Sys2Proof.Machine
end

section
/-! PROOFS. Errors and idling: a failed decode's writes, the commands that cannot fail, and the idle block (spec/60_exceptions.md R151, R153, R163). -/

namespace Sys2Proof.Machine

/-- Settles O43: the kind says what the window is like (`unpack_exhausted_iff`, `unpack_overlong_iff`), and the window what the command writes
(`exec_decode_exhausted`, `exec_decode_overlong`). -/
theorem decodeFailureEffects : Obligations.DecodeFailureEffects := by
  intro i hi s k h
  cases k with
  | exhausted =>
    have hwindow := (unpack_exhausted_iff (width_cases i)).1 h
    obtain ⟨v, hv⟩ := exec_decode_exhausted hi hwindow
    exact ⟨v, _, hv⟩
  | overlong =>
    have hwindow := (unpack_overlong_iff (width_cases i)).1 h
    obtain ⟨v, hv⟩ := exec_decode_overlong hi hwindow
    exact ⟨v, _, hv⟩

/-- Settles O28: neither kind has a failing branch, and both end in `succeed` (`exec_pure`, `exec_encode`). -/
theorem pureAndEncodeCommandsCannotFail : Obligations.PureAndEncodeCommandsCannotFail := by
  rintro i (hi | hi) s
  · obtain ⟨v, hv⟩ := exec_pure hi s
    exact ⟨_, hv, rfl⟩
  · obtain ⟨u, hu⟩ := exec_encode hi s
    exact ⟨_, hu, succeed_st _⟩

/-- Settles O5: the empty list of actions selects the first branch of `step` (log 2). -/
theorem idleBlockKeepsItsState : Obligations.IdleBlockKeepsItsState := by
  intro s hidle
  rw [step, hidle]

end Sys2Proof.Machine
end

section
/-! PROOFS. Runs of defined transactions, and `reset()` (spec/70_reset_and_hazards.md R170, R186). -/

namespace Sys2Proof.Machine

open Sys2Proof.Claims

/-- Settles O60: an idle step keeps the whole state; any other performs a defined action, which goes on (`perform_defined`) and changes neither
the parameters, by which the rest are defined, nor the actions to come (`perform_params`). -/
theorem stepKeepsTheHostToTransactions : Obligations.StepKeepsTheHostToTransactions := by
  intro s hs
  rcases hp : s.pending with _ | ⟨a, rest⟩
  · exact ⟨s, idleBlockKeepsItsState s hp, hs, hp⟩
  · rw [hostKeepsToTransactions, hp] at hs
    obtain ⟨ha, hrest⟩ := List.forall_mem_cons.1 hs
    obtain ⟨t, ht⟩ := perform_defined (s := takeAction rest s) ha
    obtain ⟨haw, hlw, hpending⟩ := perform_params ht
    refine ⟨t, (step_action s a rest hp).trans ht, ?_, hpending⟩
    rw [hostKeepsToTransactions, haw, hlw, hpending]
    exact hrest

/-- A run of defined transactions goes on and has taken as many actions as steps, by induction on the steps. -/
theorem run_defined {s : State} (hs : hostKeepsToTransactions s) (k : Nat) :
    ∃ t, Host.Core.run core k s = .next t ∧ t.pending = s.pending.drop k := by
  induction k generalizing s with
  | zero => exact ⟨s, run_zero s, rfl⟩
  | succ k ih =>
    obtain ⟨s', hstep, hs', htail⟩ := stepKeepsTheHostToTransactions s hs
    obtain ⟨t, hrun, hpending⟩ := ih hs'
    exact ⟨t, (run_succ k hstep).trans hrun, by rw [hpending, htail, List.drop_tail]⟩

/-- Settles O13 (`run_defined`): after as many steps as actions the whole list has been taken. -/
theorem definedActionsNeverStop : Obligations.DefinedActionsNeverStop := by
  intro s hs
  refine ⟨fun k => ?_, ?_⟩
  · obtain ⟨t, hrun, _⟩ := run_defined hs k
    exact ⟨t, hrun⟩
  · obtain ⟨t, hrun, hpending⟩ := run_defined hs s.pending.length
    exact ⟨t, hrun, hpending.trans List.drop_length⟩

/-- Settles O6: the action is `resetBlock`, on the state less the action (`step_pending_cons`). -/
theorem resetWritesEveryRegister : Obligations.ResetWritesEveryRegister := fun s rest => step_pending_cons s .reset rest

end Sys2Proof.Machine
end

section
/-! PROOFS. The accesses of a command: the bytes an encode can change, and how many accesses each kind makes (spec/70_reset_and_hazards.md R176, R180,
R185). -/

namespace Sys2Proof.Machine

open Sys2Proof.Claims

/-- Inside owned bytes that do not wrap, every address formed is the sum itself (20_memory.md R51). -/
theorem addr_toNat_of_capacity {W k : Nat} {s : State} (hcap : outputCapacity W s) (hk : k < maxLen W) :
    (addr s.dst k).toNat = s.dst.toNat + k := by
  rw [addr_toNat, Nat.mod_eq_of_lt (by omega)]

/-- An encode command writes at most MAXLEN(W) bytes from DST on (41_varint_pack.md R102), so a byte outside them reads as before. -/
theorem packCommand_read_other {W : Nat} (hW : 7 ≤ W) (u : BitVec W) {s : State} (hcap : outputCapacity W s) {a : Nat}
    (ha : a < s.dst.toNat ∨ s.dst.toNat + maxLen W ≤ a) : (packCommand u s).mem.read a = s.mem.read a := by
  have hlen := wireLength_le_maxLen hW u
  rw [packCommand_eq hW]
  refine storeBytes_read_other s.dst _ 0 (port s) a fun k hk => ?_
  rw [packedBytes_length] at hk
  rw [Nat.zero_add, addr_toNat_of_capacity hcap (by omega)]
  omega

/-- Settles O33 (`packCommand_read_other`). -/
theorem encodeStaysInsideTheOwnedBytes : Obligations.EncodeStaysInsideTheOwnedBytes := by
  intro i hi s hcap
  obtain ⟨u, hu⟩ := exec_encode hi s
  obtain ⟨h7, _⟩ := width_facts i
  exact ⟨_, hu, fun _ ha => packCommand_read_other h7 u hcap ha⟩

/-- A decode command is one that is neither pure nor an encode (00_scope.md R13). -/
theorem isDecode_eq (i : Instr) : i.isDecode = (!i.isPure && !i.isEncode) := by
  cases i <;> rfl

@[simp] theorem writesOf_length {aw : Nat} (d : BitVec aw) (u : Nat) : (writesOf d u).length = wireLength u := by
  simp [writesOf]

theorem eq_write_of_mem_writesOf {aw : Nat} {d : BitVec aw} {u : Nat} {x : Access} (h : x ∈ writesOf d u) : ∃ a v, x = .write a v := by
  obtain ⟨k, _, rfl⟩ := List.mem_map.1 h
  exact ⟨_, _, rfl⟩

theorem eq_read_of_mem_readsFrom {aw : Nat} {pos : BitVec aw} {n : Nat} {x : Access} (h : x ∈ readsFrom pos n) : ∃ a, x = .read a := by
  obtain ⟨k, _, rfl⟩ := List.mem_map.1 h
  exact ⟨_, rfl⟩

/-- Settles O46, by the kind of the command: a pure one leaves the record alone, an encode adds `writesOf`, as many as CNT says
(`packCommand_cnt_of_le`), and a decode adds `readsFrom` (`decodeCommand_trace`). -/
theorem accessCounts : Obligations.AccessCounts := by
  intro i s
  have hdecode := isDecode_eq i
  rcases kind_flags i with ⟨hp, he⟩ | ⟨hp, he⟩ | ⟨hp, he, hd⟩
  · obtain ⟨v, hv⟩ := exec_pure hp s
    refine ⟨_, [], hv, (List.append_nil _).symm, ?_⟩
    rw [hdecode, hp, he]
    exact ⟨fun _ => rfl, nofun, nofun⟩
  · obtain ⟨u, hu⟩ := exec_encode he s
    obtain ⟨h7, hM⟩ := width_facts i
    have htrace : (packCommand u s).trace = s.trace ++ writesOf s.dst u.toNat := congrArg State.trace (packCommand_eq h7 u s)
    refine ⟨_, _, hu, htrace, ?_⟩
    rw [hdecode, hp, he, writesOf_length, packCommand_cnt_of_le h7 hM]
    exact ⟨nofun, fun _ => ⟨wireLength_pos _, wireLength_le_maxLen h7 u, rfl, fun _ => eq_write_of_mem_writesOf⟩, nofun⟩
  · obtain ⟨f, hf⟩ := exec_decode hd
    obtain ⟨k, hk, htrace⟩ := decodeCommand_trace (width_cases i) f s
    refine ⟨_, _, hf s, htrace, ?_⟩
    rw [hp, he, readsFrom_length]
    exact ⟨nofun, nofun, fun _ => ⟨hk, fun _ => eq_read_of_mem_readsFrom⟩⟩

end Sys2Proof.Machine
end
